-- ==== Sys2Proof/Word.lean ====
section
/-!
DEFINITION. The word types of INTXCORE-1: the port datum (one limb), the 256-bit operand width, the 320-bit extended
width and the port address. Rules R4, R5, R6, R50 of spec/00_scope.md and spec/20_memory.md.
-/

namespace Sys2Proof

/-- One limb, 64 bits: the width of the port datum and of `E` (R5, R52). -/
abbrev Limb := BitVec 64

/-- A 256-bit unsigned value, four limbs (R4, R10). -/
abbrev Word := BitVec 256

/-- A 320-bit unsigned value, five limbs: the extended width (R6). -/
abbrev Wide := BitVec 320

/-- A limb address of the register port, 6 bits (R50). -/
abbrev PortAddr := BitVec 6

end Sys2Proof
end

