-- ==== Sys2Proof/Config.lean ====
section
/-!
DEFINITION. What an implementation fixes (the strategy of the public `addmod`) and the free values. Every constant here
is opaque: no proof can see a value of it.
-/

namespace Sys2Proof

/-- The six named strategies of the modular addition engine (R7), numbered 1 to 6 in this order (R74). -/
inductive Strategy where
  | div  : Strategy   -- 1, Division-only (R133)
  | cfp  : Strategy   -- 2, Carry-fast-path (R134)
  | ufp  : Strategy   -- 3, Unified-fast-path (R135)
  | pre  : Strategy   -- 4, Pre-reduction (R136)
  | preb : Strategy   -- 5, Pre-reduction with borrow-test (R137)
  | thr  : Strategy   -- 6, Threshold fast path (R138)
  deriving DecidableEq, Repr, Inhabited

/-- `PUBLIC_STRATEGY`: the strategy that the public `addmod` (command word 0x04) runs. An open parameter, P1 of R8
(R139); assumption log 6. Safe: a claim holds for all six. -/
opaque Config.publicStrategy : Strategy

/-- Free value: what `R` holds from a fault on (R175). Arguments: the instance's stream and the draw's number.
Assumption log 3. -/
opaque Config.freeR : Nat → Nat → Word

/-- Free value: what `Q` holds from a fault on (R175). Assumption log 3. -/
opaque Config.freeQ : Nat → Nat → Wide

/-- Free value: `STATUS.F` from a fault on, at each read anew (R175). Assumption log 3. -/
opaque Config.freeF : Nat → Nat → Bool

/-- Free value: `STATUS.PATH` from a fault on, at each read anew (R175). Assumption log 3. -/
opaque Config.freePath : Nat → Nat → BitVec 3

/-- Free value: the limb a read of `R` or `Q` answers in the fault state, at each read anew (R175). Assumption log 3. -/
opaque Config.freeLimb : Nat → Nat → Limb

end Sys2Proof
end

