-- ==== Sys2Proof/Syntax.lean ====
section
/-!
DEFINITION. The commands of INTXCORE-1: one constructor per row of the opcode table (R75). A command has no operand
fields and no immediates (R72), so no constructor has an argument.
-/

namespace Sys2Proof

/-- The ten legal commands (R75). -/
inductive Instr where
  /-- `ADDC`, word 0x01: AddWithCarry on `X`, `Y` (R91). -/
  | addc
  /-- `SUBC`, word 0x02: SubWithCarry on `X`, `Y` (R96). -/
  | subc
  /-- `DIVREM`, word 0x03: DivRem of the dividend in `E` and `X` by `M` (R111). -/
  | divrem
  /-- `ADDMOD`, word 0x04: the public `addmod`, by strategy PUBLIC_STRATEGY (R139). -/
  | addmod
  /-- `ADDMOD.DIV`, word 0x14: Division-only (R133). -/
  | addmodDiv
  /-- `ADDMOD.CFP`, word 0x24: Carry-fast-path (R134). -/
  | addmodCfp
  /-- `ADDMOD.UFP`, word 0x34: Unified-fast-path (R135). -/
  | addmodUfp
  /-- `ADDMOD.PRE`, word 0x44: Pre-reduction (R136). -/
  | addmodPre
  /-- `ADDMOD.PREB`, word 0x54: Pre-reduction with borrow-test (R137). -/
  | addmodPreb
  /-- `ADDMOD.THR`, word 0x64: Threshold fast path (R138). -/
  | addmodThr
  deriving DecidableEq, Repr

end Sys2Proof
end

