-- ==== Sys2Proof/WellFormed.lean ====
section
/-!
DEFINITION. When a datum written to `CMD` is a legal command (R76), written as the rule's own three conditions and
independently of the decoder. A command has no operands (R72), so every `Instr` is well-formed as it stands and the
checks are about the 64-bit datum that presents it.
-/

namespace Sys2Proof

/-- R76: `v[63:8] = 0`. -/
def upperClear (v : Limb) : Bool := v.extractLsb' 8 56 == 0

/-- R76: `v[7] = 0`. -/
def zClear (v : Limb) : Bool := v.extractLsb' 7 1 == 0

/-- R76: `v[3:0]` is 1, 2 or 3 and `v[6:4] = 0`. -/
def plainOperation (v : Limb) : Bool :=
  (v.extractLsb' 0 4 == 1 || v.extractLsb' 0 4 == 2 || v.extractLsb' 0 4 == 3) && v.extractLsb' 4 3 == 0

/-- R76: `v[3:0] = 4` and `v[6:4]` is in 0..6. -/
def addmodOperation (v : Limb) : Bool :=
  v.extractLsb' 0 4 == 4 && decide (v.extractLsb' 4 3 ≤ 6)

/-- R76: the datum is one of the ten legal commands. -/
def legalDatum (v : Limb) : Bool :=
  upperClear v && zClear v && (plainOperation v || addmodOperation v)

end Sys2Proof
end

