-- ==== Sys2Proof/Decode.lean ====
section
/-!
DEFINITION. Decoding a datum written to `CMD` (R70, R71, R78), total on all 2^64 data and rejecting by name (R76), and
after it the encoder, written from the table of R75.
-/

namespace Sys2Proof

/-- Why a datum is not a command (R76, R172). Every one of them raises the same fault, IllegalCmd. -/
inductive Illegal where
  /-- a bit of `v[63:8]` is 1 -/
  | upperBits
  /-- bit 7 (`Z`) is 1 -/
  | zBit
  /-- `OP` is 0 or 5..15 -/
  | reservedOp
  /-- `STRAT` is not 0 and `OP` is 1, 2 or 3 -/
  | strategyWithoutAddmod
  /-- `STRAT` is 7 and `OP` is 4 -/
  | reservedStrategy
  deriving DecidableEq, Repr

/-- Field `OP`, bits 3:0 of the command word (R71). -/
def opField (v : Limb) : BitVec 4 := v.extractLsb' 0 4

/-- Field `STRAT`, bits 6:4 of the command word (R71). -/
def stratField (v : Limb) : BitVec 3 := v.extractLsb' 4 3

/-- Field `Z`, bit 7 of the command word (R71). -/
def zField (v : Limb) : BitVec 1 := v.extractLsb' 7 1

/-- The `ADDMOD` command of a strategy number (R74). -/
def decodeStrategy (strat : BitVec 3) : Except Illegal Instr :=
  match strat.toNat with
  | 0 => .ok .addmod
  | 1 => .ok .addmodDiv
  | 2 => .ok .addmodCfp
  | 3 => .ok .addmodUfp
  | 4 => .ok .addmodPre
  | 5 => .ok .addmodPreb
  | 6 => .ok .addmodThr
  | _ => .error .reservedStrategy

/-- A command that takes no strategy number: `STRAT` must be 0 (R71). -/
def withoutStrategy (i : Instr) (strat : BitVec 3) : Except Illegal Instr :=
  if strat = 0 then .ok i else .error .strategyWithoutAddmod

/-- The command of the two fields (R73, R78). -/
def decodeFields (op : BitVec 4) (strat : BitVec 3) : Except Illegal Instr :=
  match op.toNat with
  | 1 => withoutStrategy .addc strat
  | 2 => withoutStrategy .subc strat
  | 3 => withoutStrategy .divrem strat
  | 4 => decodeStrategy strat
  | _ => .error .reservedOp

/-- `Decode` (R78). -/
def decode (v : Limb) : Except Illegal Instr :=
  if v.extractLsb' 8 56 ≠ 0 then .error .upperBits
  else if zField v ≠ 0 then .error .zBit
  else decodeFields (opField v) (stratField v)

/-- The datum that presents a command word: the word zero-extended to a limb (R70). -/
def datumOfWord (w : BitVec 8) : Limb := w.setWidth 64

/-- What the decoder reads from a command word of `nbits` bits, every bit of the datum above them 0. A number that does
not fit the 64-bit port datum is no command. -/
def decodeTableWord (nbits w : Nat) : Option Instr :=
  if w % 2 ^ nbits < 2 ^ 64 then
    match decode (BitVec.ofNat 64 (w % 2 ^ nbits)) with
    | .ok i => some i
    | .error _ => none
  else none

/-- Field `OP` of a command (R73). -/
def opOf : Instr → BitVec 4
  | .addc => 1
  | .subc => 2
  | .divrem => 3
  | .addmod => 4
  | .addmodDiv => 4
  | .addmodCfp => 4
  | .addmodUfp => 4
  | .addmodPre => 4
  | .addmodPreb => 4
  | .addmodThr => 4

/-- Field `STRAT` of a command (R71, R74). -/
def stratOf : Instr → BitVec 3
  | .addc => 0
  | .subc => 0
  | .divrem => 0
  | .addmod => 0
  | .addmodDiv => 1
  | .addmodCfp => 2
  | .addmodUfp => 3
  | .addmodPre => 4
  | .addmodPreb => 5
  | .addmodThr => 6

/-- The 8-bit command word, format `C`: `Z` = 0, `STRAT`, `OP` (R71). -/
def encodeWord (i : Instr) : BitVec 8 := (0#1 ++ stratOf i) ++ opOf i

/-- The datum the host writes to `CMD` for a command (R75, R81). -/
def encode (i : Instr) : Limb := datumOfWord (encodeWord i)

end Sys2Proof
end

