-- ==== Sys2Proof/Machine/State.lean ====
section
/-!
DEFINITION. The architectural state of one instance of the core (R20), the host's accesses waiting at its port (R60,
R80), the reasons a step can stop, and the state after reset (R37).
-/

namespace Sys2Proof.Machine

/-- What the host can do to the core: the primitive actions of R80. -/
inductive HostAction where
  /-- `WRL addr, v`: `MemWrite(addr, 8, v)` (R52, R80) -/
  | wrl (addr : PortAddr) (v : Limb)
  /-- `RDL addr`: `MemRead(addr, 8)`, the limb is yielded to the host (R52, R80) -/
  | rdl (addr : PortAddr)
  /-- `RESET` (R80, R190) -/
  | reset
  /-- an access to this port by a second host, which the spec does not define (R60, V7) -/
  | secondHost
  deriving DecidableEq, Repr

/-- The state of one instance. The first eleven fields are the whole architectural state (R20, R27); the last four are
the model's own (assumption log 1, 2, 4). -/
structure State where
  /-- `X`, first operand (R21) -/
  x : Word
  /-- `E`, limb 4 of the dividend (R22) -/
  e : Limb
  /-- `Y`, second operand (R21) -/
  y : Word
  /-- `M`, the modulus and the divisor (R21) -/
  m : Word
  /-- `R`, the result value (R24) -/
  r : Word
  /-- `Q`, the quotient (R25) -/
  q : Wide
  /-- `STATUS.VALID` (R28) -/
  valid : Bool
  /-- `STATUS.F`, carry-out or borrow-out (R26) -/
  f : Bool
  /-- `STATUS.ERR`: the core is in the fault state (R29, R176) -/
  err : Bool
  /-- `STATUS.CAUSE` (R29) -/
  cause : BitVec 4
  /-- `STATUS.PATH` (R30) -/
  path : BitVec 3
  /-- the host's actions not yet performed, oldest first (R60) -/
  pending : List HostAction
  /-- the limbs the host's reads have returned, newest first (R52) -/
  yields : List Limb
  /-- the free-value stream of this instance -/
  stream : Nat
  /-- how many free values this instance has drawn -/
  draws : Nat
  deriving DecidableEq, Repr

/-- A machine fault that ends a run. There is none: a command completes, is ignored, or raises one of the two faults of
R170, and those are next states (R14, R174). Assumption log 12. -/
inductive Fault where
  deriving DecidableEq, Repr

/-- Why a step gives no next state. -/
inductive Refusal where
  /-- Raised by `exec` for a command that has no meaning yet. No arm raises it. Safe. -/
  | notModelled (mnemonic : String)
  /-- Raised by `step` when a second host issues an access to the port: R60 says a model must refuse that
  configuration. Safe. Assumption log 5. -/
  | secondHost
  /-- Raised by `systemStep` for an instance number that the system does not have (R183). Safe. Assumption log 8. -/
  | noSuchInstance
  deriving DecidableEq, Repr

/-- The state just after reset (R37, R190): every register is zero. Nothing is pending and nothing has been read or
drawn (assumption log 1, 2, 4). -/
def State.reset : State where
  x := 0
  e := 0
  y := 0
  m := 0
  r := 0
  q := 0
  valid := false
  f := false
  err := false
  cause := 0
  path := 0
  pending := []
  yields := []
  stream := 0
  draws := 0

end Sys2Proof.Machine
end

