-- ==== Sys2Proof/Machine/Operands.lean ====
section
/-!
DEFINITION. The operand forms: limbs of a register (R10), the 320-bit values the divider takes (R22, R132), and the map
of the register port (R51).
-/

namespace Sys2Proof.Machine

/-- `v[i]`, limb `i` of a value: bits `64*i+63` down to `64*i` (R10). -/
def limb {n : Nat} (v : BitVec n) (i : Nat) : Limb := v.extractLsb' (64 * i) 64

/-- `v` with limb `i` replaced by `w`, every other limb as before (R51, R57). -/
def setLimb {n : Nat} (v : BitVec n) (i : Nat) (w : Limb) : BitVec n :=
  (v &&& ~~~((BitVec.allOnes 64).setWidth n <<< (64 * i))) ||| (w.setWidth n <<< (64 * i))

/-- The 256-bit value with the four limbs given, least significant first (R10). -/
def wordOfLimbs (l0 l1 l2 l3 : Limb) : Word := ((l3 ++ l2) ++ l1) ++ l0

/-- The 320-bit value with the five limbs given, least significant first (R10). -/
def wideOfLimbs (l0 l1 l2 l3 l4 : Limb) : Wide := (((l4 ++ l3) ++ l2) ++ l1) ++ l0

/-- The 320-bit value with high limb `hi` and low 256 bits `lo`: the extended-width shape (R6, R22). -/
def wide (hi : Limb) (lo : Word) : Wide := hi ++ lo

/-- The dividend of `DIVREM`, `E` above `X` (R22). -/
def dividend (s : State) : Wide := wide s.e s.x

/-- The carry bit as an extra high limb (R132). -/
def carryLimb (c : Bool) : Limb := (BitVec.ofBool c).setWidth 64

/-- The 320-bit sum of R132: the carry as limb 4, the 256-bit sum below it. -/
def wideSum (sv : Word) (c : Bool) : Wide := wide (carryLimb c) sv

/-- A 256-bit dividend: limb 4 zero (R114). -/
def wideOfWord (v : Word) : Wide := wide 0 v

/-- The top limb of a 256-bit value, limb 3 (R10). -/
def topLimb (v : Word) : Limb := limb v 3

/-- What a limb address names (R51). -/
inductive Location where
  | x (i : Nat)
  | e
  | y (i : Nat)
  | m (i : Nat)
  | cmd
  | status
  | r (i : Nat)
  | q (i : Nat)
  | reserved
  deriving DecidableEq, Repr

/-- The address map (R51). -/
def locate (addr : PortAddr) : Location :=
  let a := addr.toNat
  if a ≤ 0x03 then .x a
  else if a = 0x04 then .e
  else if a ≤ 0x07 then .reserved
  else if a ≤ 0x0B then .y (a - 0x08)
  else if a ≤ 0x0F then .reserved
  else if a ≤ 0x13 then .m (a - 0x10)
  else if a ≤ 0x17 then .reserved
  else if a = 0x18 then .cmd
  else if a = 0x19 then .status
  else if a ≤ 0x1F then .reserved
  else if a ≤ 0x23 then .r (a - 0x20)
  else if a ≤ 0x27 then .reserved
  else if a ≤ 0x2C then .q (a - 0x28)
  else .reserved

/-- The address of `CMD` (R51). -/
def cmdAddr : PortAddr := 0x18

/-- The address of `STATUS` (R51). -/
def statusAddr : PortAddr := 0x19

end Sys2Proof.Machine
end

