-- ==== Sys2Proof/Machine/Flags.lean ====
section
/-!
DEFINITION. The carry primitives with their flags (R90, R95), in value form and in limb form (R93, R97), comparison
(R11), and the STATUS word with its codes (R27, R29, R30).
-/

namespace Sys2Proof.Machine

/-- `AddWithCarry(a, b)` (R90): the sum modulo 2^256, and whether the exact sum reaches 2^256. -/
def addWithCarry (a b : Word) : Word × Bool :=
  (BitVec.ofNat 256 (a.toNat + b.toNat), decide (2 ^ 256 ≤ a.toNat + b.toNat))

/-- `SubWithCarry(a, b)` (R95): the difference modulo 2^256, and whether `a` is below `b`. -/
def subWithCarry (a b : Word) : Word × Bool :=
  (BitVec.ofInt 256 ((a.toNat : Int) - (b.toNat : Int)), decide (a.toNat < b.toNat))

/-- One step of the carry chain of R93: the limb of the 65-bit sum and its carry-out. -/
def addLimb (a b : Limb) (c : Bool) : Limb × Bool :=
  let t := a.toNat + b.toNat + c.toNat
  (BitVec.ofNat 64 t, decide (2 ^ 64 ≤ t))

/-- The limb form of `AddWithCarry` (R93): the carry into limb 0 is 0 (R92). -/
def addWithCarryLimbs (a b : Word) : Word × Bool :=
  let t0 := addLimb (limb a 0) (limb b 0) false
  let t1 := addLimb (limb a 1) (limb b 1) t0.2
  let t2 := addLimb (limb a 2) (limb b 2) t1.2
  let t3 := addLimb (limb a 3) (limb b 3) t2.2
  (wordOfLimbs t0.1 t1.1 t2.1 t3.1, t3.2)

/-- One step of the borrow chain of R97: the limb of the difference and its borrow-out. -/
def subLimb (a b : Limb) (w : Bool) : Limb × Bool :=
  let t : Int := (a.toNat : Int) - (b.toNat : Int) - (w.toNat : Int)
  (BitVec.ofInt 64 t, decide (t < 0))

/-- The limb form of `SubWithCarry` (R97): the borrow into limb 0 is 0 (R92). -/
def subWithCarryLimbs (a b : Word) : Word × Bool :=
  let t0 := subLimb (limb a 0) (limb b 0) false
  let t1 := subLimb (limb a 1) (limb b 1) t0.2
  let t2 := subLimb (limb a 2) (limb b 2) t1.2
  let t3 := subLimb (limb a 3) (limb b 3) t2.2
  (wordOfLimbs t0.1 t1.1 t2.1 t3.1, t3.2)

/-- `Lt(a, b)` (R11): the comparison of the integers the values represent. -/
def lt (a b : Word) : Bool := decide (a.toNat < b.toNat)

/-- The limb-level reading of `Lt` (R11): from the most significant limb down. -/
def ltLimbs (a b : Word) : Bool :=
  if limb a 3 ≠ limb b 3 then decide ((limb a 3).toNat < (limb b 3).toNat)
  else if limb a 2 ≠ limb b 2 then decide ((limb a 2).toNat < (limb b 2).toNat)
  else if limb a 1 ≠ limb b 1 then decide ((limb a 1).toNat < (limb b 1).toNat)
  else if limb a 0 ≠ limb b 0 then decide ((limb a 0).toNat < (limb b 0).toNat)
  else false

/-- `CAUSE` code 1, DIV_BY_ZERO (R29, R170). -/
def causeDivByZero : BitVec 4 := 1

/-- `CAUSE` code 2, ILLEGAL_CMD (R29, R170). -/
def causeIllegalCmd : BitVec 4 := 2

/-- The reduction path that produced a modular sum (R131). -/
inductive Path where
  | div320
  | div256
  | pass
  | sub
  deriving DecidableEq, Repr

/-- The `PATH` code of a reduction path (R30, R131). -/
def pathCode : Path → BitVec 3
  | .div320 => 1
  | .div256 => 2
  | .pass => 3
  | .sub => 4

/-- The STATUS limb (R27): bits 63:11 zero, `PATH` 10:8, `CAUSE` 7:4, bit 3 zero, `ERR` 2, `F` 1, `VALID` 0. -/
def statusWord (path : BitVec 3) (cause : BitVec 4) (err f valid : Bool) : Limb :=
  (((((0#53 ++ path) ++ cause) ++ 0#1) ++ BitVec.ofBool err) ++ BitVec.ofBool f) ++ BitVec.ofBool valid

end Sys2Proof.Machine
end

