-- ==== Sys2Proof/Machine/Ops.lean ====
section
/-!
DEFINITION. The named operations over the registers that the commands and the port share: completing a command (R32),
raising a fault (R174), leaving the fault state by reset (R178, R190), and reading and writing a location of the port
(R51, R55, R56, R175, R176).
-/

namespace Sys2Proof.Machine

/-- What a completing command writes besides `VALID` (R32). A field the command has no result for is 0. -/
structure Result where
  r : Word
  q : Wide := 0
  f : Bool := false
  path : BitVec 3 := 0
  deriving DecidableEq, Repr

/-- A command completes: `R`, `Q`, `F`, `PATH` and `VALID` are written in one step (R28, R32). -/
def commit (res : Result) (s : State) : State :=
  { s with r := res.r, q := res.q, f := res.f, path := res.path, valid := true }

/-- `raise Fault(code)`, the fault entry sequence (R174). `R`, `Q`, `F`, `PATH` become free values (R175; assumption
log 3); nothing is saved and control goes nowhere (R177). -/
def raise (code : BitVec 4) (s : State) : State :=
  { s with
    err := true
    cause := code
    valid := false
    r := Config.freeR s.stream s.draws
    q := Config.freeQ s.stream s.draws
    f := Config.freeF s.stream s.draws
    path := Config.freePath s.stream s.draws
    draws := s.draws + 1 }

/-- The reset action, the only way out of the fault state (R178, R190): every register becomes zero. The host's own
side of the model (`pending`, `yields`) and the free-value counters are not state of the core and stay. -/
def applyReset (s : State) : State :=
  { State.reset with pending := s.pending, yields := s.yields, stream := s.stream, draws := s.draws }

/-- In the fault state a write or command is ignored; otherwise it takes the core to `t` (R14, R176). -/
def ifAccepting (s t : State) : Host.Outcome State Fault Refusal :=
  .next (if s.err then s else t)

/-- A command that divides by `M`: `M = 0` raises DivByZero before anything is computed (R112, R140, R171); otherwise
the command completes with the result given. -/
def withModulus (s : State) (result : s.m ≠ 0 → Result) : State :=
  if h : s.m = 0 then raise causeDivByZero s else commit (result h) s

/-- A read of a limb of `R` or `Q`: in the fault state it answers a fresh free value (R175). -/
def readResult (v : Limb) (s : State) : Limb × State :=
  if s.err then (Config.freeLimb s.stream s.draws, { s with draws := s.draws + 1 }) else (v, s)

/-- A read of `STATUS`: in the fault state `F` and `PATH` are fresh free values (R175, R176). -/
def readStatus (s : State) : Limb × State :=
  if s.err then
    (statusWord (Config.freePath s.stream s.draws) s.cause s.err (Config.freeF s.stream s.draws) s.valid,
      { s with draws := s.draws + 1 })
  else (statusWord s.path s.cause s.err s.f s.valid, s)

/-- `MemRead` of a location: the map's "host read" column (R51, R52). -/
def readLocation : Location → State → Limb × State
  | .x i, s => (limb s.x i, s)
  | .e, s => (s.e, s)
  | .y i, s => (limb s.y i, s)
  | .m i, s => (limb s.m i, s)
  | .cmd, s => (0, s)
  | .status, s => readStatus s
  | .r i, s => readResult (limb s.r i) s
  | .q i, s => readResult (limb s.q i) s
  | .reserved, s => (0, s)

/-- `MemWrite` of a location other than `CMD`, outside the fault state: the map's "host write" column (R51, R55, R56).
A write to `R`, `Q`, `STATUS` or a reserved location changes nothing. -/
def writeLocation : Location → Limb → State → State
  | .x i, v, s => { s with x := setLimb s.x i v }
  | .e, v, s => { s with e := v }
  | .y i, v, s => { s with y := setLimb s.y i v }
  | .m i, v, s => { s with m := setLimb s.m i v }
  | .cmd, _, s => s
  | .status, _, s => s
  | .r _, _, s => s
  | .q _, _, s => s
  | .reserved, _, s => s

/-- The limb a read returned goes to the host (R52, R80). -/
def yieldLimb (p : Limb × State) : State := { p.2 with yields := p.1 :: p.2.yields }

end Sys2Proof.Machine
end

