-- ==== Sys2Proof/Machine/CarryPrimitives.lean ====
section
/-!
DEFINITION. The carry primitives `ADDC` (R91) and `SUBC` (R96). Neither reads `M`, `E`, `F` or a result register, and
neither can fault.
-/

namespace Sys2Proof.Machine

/-- `ADDC` (R91). -/
def execAddc (s : State) : Host.Outcome State Fault Refusal :=
  let p := addWithCarry s.x s.y
  ifAccepting s (commit { r := p.1, f := p.2 } s)

/-- `SUBC` (R96): `X - Y`. -/
def execSubc (s : State) : Host.Outcome State Fault Refusal :=
  let p := subWithCarry s.x s.y
  ifAccepting s (commit { r := p.1, f := p.2 } s)

end Sys2Proof.Machine
end

