-- ==== Sys2Proof/Machine/LongDivider.lean ====
section
/-!
DEFINITION. The long divider: the function `DivRem` by its contract (R110) and the command `DIVREM` (R111).
-/

namespace Sys2Proof.Machine

/-- `DivRem(n, d)` (R110): floor quotient, 320 bits (R113), and remainder, 256 bits. It takes a proof that `d` is not
zero, so that `DivRem(n, 0)` has no value (R112; assumption log 10). -/
def divRem (n : Wide) (d : Word) (_hd : d ≠ 0) : Wide × Word :=
  (BitVec.ofNat 320 (n.toNat / d.toNat), BitVec.ofNat 256 (n.toNat % d.toNat))

/-- `DIVREM` (R111). -/
def execDivrem (s : State) : Host.Outcome State Fault Refusal :=
  ifAccepting s (withModulus s fun h =>
    let p := divRem (dividend s) s.m h
    { r := p.2, q := p.1 })

end Sys2Proof.Machine
end

