-- ==== Sys2Proof/Machine/ModularAddition.lean ====
section
/-!
DEFINITION. The modular addition engine: the six strategies (R133 to R138) and the seven commands (R130, R139). A strategy
takes a proof that the modulus is not zero: `addmod(x, y, 0)` has no value (R140; assumption log 10).
-/

namespace Sys2Proof.Machine

/-- The division path: the 320-bit sum reduced by DivRem (R132 (d), R133). -/
def divideSum (sv : Word) (c : Bool) (m : Word) (hm : m ≠ 0) : Word × Path :=
  ((divRem (wideSum sv c) m hm).2, .div320)

/-- At most one corrective subtraction of `m`, needed when the addition carried or `sv` is at least `m` (R135, R136,
R138; C5, D27). -/
def correctSum (sv : Word) (c : Bool) (m : Word) : Word × Path :=
  if c = true ∨ lt sv m = false then ((subWithCarry sv m).1, .sub) else (sv, .pass)

/-- Strategy 1, Division-only (R133). -/
def addModDiv (x y m : Word) (hm : m ≠ 0) : Word × Path :=
  let a := addWithCarry x y
  divideSum a.1 a.2 m hm

/-- Strategy 2, Carry-fast-path (R134), with the four branches of C5. -/
def addModCfp (x y m : Word) (hm : m ≠ 0) : Word × Path :=
  let a := addWithCarry x y
  let red := lt x m && lt y m
  if red = true ∧ a.2 = false then
    if lt a.1 m then (a.1, .pass) else ((subWithCarry a.1 m).1, .sub)
  else if red = true ∧ a.2 = true then ((subWithCarry a.1 m).1, .sub)
  else if a.2 = false then ((divRem (wideOfWord a.1) m hm).2, .div256)
  else ((divRem (wide 1 a.1) m hm).2, .div320)

/-- Strategy 3, Unified-fast-path (R135). -/
def addModUfp (x y m : Word) (hm : m ≠ 0) : Word × Path :=
  let a := addWithCarry x y
  if lt x m = true ∧ lt y m = true then correctSum a.1 a.2 m
  else divideSum a.1 a.2 m hm

/-- An operand reduced modulo `m` by a 256-bit division (R136, D28: always divided). -/
def preReduce (v m : Word) (hm : m ≠ 0) : Word := (divRem (wideOfWord v) m hm).2

/-- Strategy 4, Pre-reduction (R136). -/
def addModPre (x y m : Word) (hm : m ≠ 0) : Word × Path :=
  let a := addWithCarry (preReduce x m hm) (preReduce y m hm)
  correctSum a.1 a.2 m

/-- Strategy 5, Pre-reduction with borrow-test (R137): always subtract, then inspect the borrow. -/
def addModPreb (x y m : Word) (hm : m ≠ 0) : Word × Path :=
  let a := addWithCarry (preReduce x m hm) (preReduce y m hm)
  let d := subWithCarry a.1 m
  if a.2 = true ∨ d.2 = false then (d.1, .sub) else (a.1, .pass)

/-- The structural condition `T` of strategy 6, on top limbs (R138). -/
def thresholdHolds (x y m : Word) : Bool :=
  topLimb m != 0 && decide (topLimb x ≤ topLimb m) && decide (topLimb y ≤ topLimb m)

/-- One conditional subtraction of `m` from an operand (R138). -/
def preAdjust (v m : Word) : Word := if lt v m then v else (subWithCarry v m).1

/-- Strategy 6, Threshold fast path (R138). -/
def addModThr (x y m : Word) (hm : m ≠ 0) : Word × Path :=
  if thresholdHolds x y m then
    let a := addWithCarry (preAdjust x m) (preAdjust y m)
    correctSum a.1 a.2 m
  else
    let a := addWithCarry x y
    divideSum a.1 a.2 m hm

/-- `AddMod_s(x, y, m)` (R13, R130). -/
def addMod : Strategy → (x y m : Word) → m ≠ 0 → Word × Path
  | .div => addModDiv
  | .cfp => addModCfp
  | .ufp => addModUfp
  | .pre => addModPre
  | .preb => addModPreb
  | .thr => addModThr

/-- The wrapper common to the seven `ADDMOD` words (R130). -/
def execWithStrategy (strat : Strategy) (s : State) : Host.Outcome State Fault Refusal :=
  ifAccepting s (withModulus s fun h =>
    let p := addMod strat s.x s.y s.m h
    { r := p.1, path := pathCode p.2 })

/-- `ADDMOD`, the public operation (R139). -/
def execAddmod (s : State) : Host.Outcome State Fault Refusal := execWithStrategy Config.publicStrategy s

/-- `ADDMOD.DIV` (R133). -/
def execAddmodDiv (s : State) : Host.Outcome State Fault Refusal := execWithStrategy .div s

/-- `ADDMOD.CFP` (R134). -/
def execAddmodCfp (s : State) : Host.Outcome State Fault Refusal := execWithStrategy .cfp s

/-- `ADDMOD.UFP` (R135). -/
def execAddmodUfp (s : State) : Host.Outcome State Fault Refusal := execWithStrategy .ufp s

/-- `ADDMOD.PRE` (R136). -/
def execAddmodPre (s : State) : Host.Outcome State Fault Refusal := execWithStrategy .pre s

/-- `ADDMOD.PREB` (R137). -/
def execAddmodPreb (s : State) : Host.Outcome State Fault Refusal := execWithStrategy .preb s

/-- `ADDMOD.THR` (R138). -/
def execAddmodThr (s : State) : Host.Outcome State Fault Refusal := execWithStrategy .thr s

end Sys2Proof.Machine
end

