-- ==== Sys2Proof/Machine/Dispatch.lean ====
section
/-!
DEFINITION. One arm per command (R75), each a direct call of its meaning.
-/

namespace Sys2Proof.Machine

def exec (i : Instr) (s : State) : Host.Outcome State Fault Refusal :=
  match i with
  | .addc => Sys2Proof.Machine.execAddc s
  | .subc => Sys2Proof.Machine.execSubc s
  | .divrem => Sys2Proof.Machine.execDivrem s
  | .addmod => Sys2Proof.Machine.execAddmod s
  | .addmodDiv => Sys2Proof.Machine.execAddmodDiv s
  | .addmodCfp => Sys2Proof.Machine.execAddmodCfp s
  | .addmodUfp => Sys2Proof.Machine.execAddmodUfp s
  | .addmodPre => Sys2Proof.Machine.execAddmodPre s
  | .addmodPreb => Sys2Proof.Machine.execAddmodPreb s
  | .addmodThr => Sys2Proof.Machine.execAddmodThr s

end Sys2Proof.Machine
end

