-- ==== Sys2Proof/Machine/Port.lean ====
section
/-!
DEFINITION. The register port: one host access or reset performed as one step (R57, R58, R60). A write to `CMD` runs the
whole command (R70).
-/

namespace Sys2Proof.Machine

/-- A datum presented to `CMD` (R70, R174): decode first; an illegal datum raises IllegalCmd (R172); in the fault state
nothing happens (R176). -/
def command (v : Limb) (s : State) : Host.Outcome State Fault Refusal :=
  match decode v with
  | .ok i => exec i s
  | .error _ => ifAccepting s (raise causeIllegalCmd s)

/-- `MemWrite(addr, 8, v)` (R51, R52, R176). -/
def portWrite (addr : PortAddr) (v : Limb) (s : State) : Host.Outcome State Fault Refusal :=
  match locate addr with
  | .cmd => command v s
  | l => ifAccepting s (writeLocation l v s)

/-- `MemRead(addr, 8)` (R51, R52), the limb yielded to the host. -/
def portRead (addr : PortAddr) (s : State) : State :=
  yieldLimb (readLocation (locate addr) s)

/-- One host action (R80). -/
def perform (a : HostAction) (s : State) : Host.Outcome State Fault Refusal :=
  match a with
  | .wrl addr v => portWrite addr v s
  | .rdl addr => .next (portRead addr s)
  | .reset => .next (applyReset s)
  | .secondHost => .refused .secondHost

/-- The host's oldest action is performed; with none pending the core is idle and holds its registers (R60, R182,
R192). -/
def performNext (s : State) : Host.Outcome State Fault Refusal :=
  match s.pending with
  | [] => .next s
  | a :: rest => perform a { s with pending := rest }

/-- The state in which the host's next action is the write of a command word to `CMD` (R70). -/
def presentCommand (s : State) (v : Limb) : State :=
  { s with pending := .wrl cmdAddr v :: s.pending }

end Sys2Proof.Machine
end

