-- ==== Sys2Proof/Machine/Step.lean ====
section
/-!
DEFINITION. One step of an instance, and how the host's reader places a command word in front of it.
-/

namespace Sys2Proof.Machine

/-- One step: the host's oldest pending action (R60). -/
def step (s : State) : Host.Outcome State Fault Refusal := performNext s

/-- `s` with the command word `w` as the host's next write to `CMD` (R70; assumption log 1). The datum is 64 bits wide,
so the bits above the word are 0. -/
def State.withFetchWord (s : State) (nbits w : Nat) : State :=
  presentCommand s (BitVec.ofNat 64 (w % 2 ^ nbits))

end Sys2Proof.Machine
end

