-- ==== Sys2Proof/Machine/DivisionAlgorithm.lean ====
section
/-!
DEFINITION. The reference division algorithm (R116, R117), over the naturals its pseudocode computes with (R12). It is
informative in the spec: `DIVREM` follows the contract (R110), and the two are stated to agree.
-/

namespace Sys2Proof.Machine

/-- Limb `i` of a natural number (R10). -/
def natLimb (v i : Nat) : Nat := v / 2 ^ (64 * i) % 2 ^ 64

/-- `clz64(w)` of a non-zero 64-bit word (R12). -/
def clz64 (w : Nat) : Nat := 63 - w.log2

/-- The largest `i` in 0..3 with `d[i] != 0` (R117, phase 1). -/
def topNonzeroLimb (d : Nat) : Nat :=
  if natLimb d 3 ≠ 0 then 3
  else if natLimb d 2 ≠ 0 then 2
  else if natLimb d 1 ≠ 0 then 1
  else 0

/-- One quotient-limb step of phase 2 (R117): the first estimate, the decrements of the `while` loop, whether the
add-back was taken, the quotient limb, and the running dividend after the step. -/
structure DivStep where
  firstEstimate : Nat
  decrements : Nat
  addBack : Bool
  digit : Nat
  rest : Nat
  deriving DecidableEq, Repr

/-- What the `while` loop of a step compares: the divisor's length and two top limbs, and the limb `u[j+dn-2]`. -/
structure EstimateContext where
  dn : Nat
  vTop : Nat
  vNext : Nat
  uNext : Nat
  deriving DecidableEq, Repr

/-- The condition of the `while` loop (R117). -/
def estimateTooLarge (c : EstimateContext) (qhat rhat : Nat) : Bool :=
  decide (2 ^ 64 ≤ qhat) || (decide (2 ≤ c.dn) && decide (rhat * 2 ^ 64 + c.uNext < qhat * c.vNext))

/-- The `while` loop of R117: the corrected estimate and the number of decrements. The divisor is normalised, so the loop
leaves after at most two turns; the fuel given to it is more than that (assumption log 10). -/
def correctEstimate (c : EstimateContext) : (fuel qhat rhat decrements : Nat) → Nat × Nat
  | 0, qhat, _, k => (qhat, k)
  | fuel + 1, qhat, rhat, k =>
    if estimateTooLarge c qhat rhat then
      if 2 ^ 64 ≤ rhat + c.vTop then (qhat - 1, k + 1)
      else correctEstimate c fuel (qhat - 1) (rhat + c.vTop) (k + 1)
    else (qhat, k)

/-- The limbs `u[j+dn] .. u[j]` as a number (R117). -/
def window (dn u j : Nat) : Nat := u / 2 ^ (64 * j) % 2 ^ (64 * (dn + 1))

/-- `u` with the limbs `u[j+dn] .. u[j]` replaced by the limbs of `t` (R117). -/
def replaceWindow (dn u j t : Nat) : Nat := u - window dn u j * 2 ^ (64 * j) + t * 2 ^ (64 * j)

/-- One step `j` of phase 2 (R117). -/
def divStep (dn v u j : Nat) : DivStep :=
  let vTop := natLimb v (dn - 1)
  let num := natLimb u (j + dn) * 2 ^ 64 + natLimb u (j + dn - 1)
  let c : EstimateContext := ⟨dn, vTop, natLimb v (dn - 2), natLimb u (j + dn - 2)⟩
  let est := correctEstimate c 4 (num / vTop) (num % vTop) 0
  let t : Int := (window dn u j : Int) - (est.1 * v : Nat)
  if t < 0 then
    ⟨num / vTop, est.2, true, est.1 - 1, replaceWindow dn u j (t + v).toNat⟩
  else
    ⟨num / vTop, est.2, false, est.1, replaceWindow dn u j t.toNat⟩

/-- The steps `j = k-1` down to 0 (R117, phase 2), most significant quotient limb first. -/
def divLoop (dn v : Nat) : (k u : Nat) → List DivStep
  | 0, _ => []
  | k + 1, u =>
    let st := divStep dn v u k
    st :: divLoop dn v k st.rest

/-- The normalisation shift of a divisor (R117, phase 1). -/
def divShift (d : Nat) : Nat := clz64 (natLimb d (topNonzeroLimb d))

/-- The divisor's length in limbs (R117, phase 1). -/
def divLength (d : Nat) : Nat := topNonzeroLimb d + 1

/-- Every step of the division of `n` by `d` (R117). -/
def divSteps (n d : Nat) : List DivStep :=
  divLoop (divLength d) (d * 2 ^ divShift d) (6 - divLength d) (n * 2 ^ divShift d)

/-- The quotient the steps spell, most significant limb first (R117). -/
def quotientOf (steps : List DivStep) : Nat := steps.foldl (fun q st => q * 2 ^ 64 + st.digit) 0

/-- The running dividend after the last step; there is always a step, since the divisor has at most four limbs. -/
def restOf (u : Nat) (steps : List DivStep) : Nat := steps.foldl (fun _ st => st.rest) u

/-- `DivRemAlg(n, d)` (R117): normalise, one quotient limb per step, shift the remainder back. -/
def divRemAlg (n : Wide) (d : Word) (_hd : d ≠ 0) : Wide × Word :=
  let sh := divShift d.toNat
  let steps := divSteps n.toNat d.toNat
  let rest := restOf (n.toNat * 2 ^ sh) steps % 2 ^ (64 * divLength d.toNat)
  (BitVec.ofNat 320 (quotientOf steps), BitVec.ofNat 256 (rest / 2 ^ sh))

end Sys2Proof.Machine
end

