-- ==== Sys2Proof/Machine/Script.lean ====
section
/-!
DEFINITION. Host scripts (R80): the symbols and the pseudo-instructions, as the lists of primitive actions they stand for
(R81, R82).
-/

namespace Sys2Proof.Machine

/-- The operand registers that `SET` and `MOV` name (R82). -/
inductive OperandRegister where
  | x
  | y
  | m
  deriving DecidableEq, Repr

/-- The address of limb 0 of an operand register: the symbols `X0`, `Y0`, `M0` (R51, R80). -/
def baseAddr : OperandRegister → PortAddr
  | .x => 0x00
  | .y => 0x08
  | .m => 0x10

/-- The address of `E` (R51, R80). -/
def extensionAddr : PortAddr := 0x04

/-- The address of `R[0]`: the symbol `R0` (R51, R80). -/
def resultAddr : PortAddr := 0x20

/-- The address of `Q[0]`: the symbol `Q0` (R51, R80). -/
def quotientAddr : PortAddr := 0x28

/-- The address of limb `i` above a base address: ascending addresses go from least to most significant limb (R51). -/
def limbAddr (base : PortAddr) (i : Nat) : PortAddr := base + BitVec.ofNat 6 i

/-- A command mnemonic: a write to `CMD` of its word (R81). -/
def issueScript (i : Instr) : List HostAction := [.wrl cmdAddr (encode i)]

/-- `SET reg, v`: four limb writes, least significant limb first (R82). -/
def setScript (reg : OperandRegister) (v : Word) : List HostAction :=
  [.wrl (limbAddr (baseAddr reg) 0) (limb v 0), .wrl (limbAddr (baseAddr reg) 1) (limb v 1),
    .wrl (limbAddr (baseAddr reg) 2) (limb v 2), .wrl (limbAddr (baseAddr reg) 3) (limb v 3)]

/-- `SET E, v` (R82). -/
def setExtensionScript (v : Limb) : List HostAction := [.wrl extensionAddr v]

/-- `SETN n`: `SET X` with the low 256 bits, then `SET E` with the high limb (R82). -/
def setDividendScript (n : Wide) : List HostAction :=
  setScript .x (n.extractLsb' 0 256) ++ setExtensionScript (limb n 4)

/-- `GET R`: four limb reads (R82). -/
def getResultScript : List HostAction :=
  [.rdl (limbAddr resultAddr 0), .rdl (limbAddr resultAddr 1), .rdl (limbAddr resultAddr 2), .rdl (limbAddr resultAddr 3)]

/-- `GET Q`: five limb reads (R82). -/
def getQuotientScript : List HostAction :=
  [.rdl (limbAddr quotientAddr 0), .rdl (limbAddr quotientAddr 1), .rdl (limbAddr quotientAddr 2),
    .rdl (limbAddr quotientAddr 3), .rdl (limbAddr quotientAddr 4)]

/-- `GET STATUS` (R82). -/
def getStatusScript : List HostAction := [.rdl statusAddr]

/-- The 256-bit value that `GET R` yields, from the limbs the host has read, newest first (R82). -/
def wordOfYields : List Limb → Option Word
  | l3 :: l2 :: l1 :: l0 :: _ => some (wordOfLimbs l0 l1 l2 l3)
  | _ => none

/-- The 320-bit value that `GET Q` yields, from the limbs the host has read, newest first (R82). -/
def wideOfYields : List Limb → Option Wide
  | l4 :: l3 :: l2 :: l1 :: l0 :: _ => some (wideOfLimbs l0 l1 l2 l3 l4)
  | _ => none

/-- The writes of `MOV reg, R`, issued after its `GET R`: `SET reg` with the value the host has just read (R82). With
fewer than four limbs read there is no value to write. -/
def moveScript (reg : OperandRegister) (yields : List Limb) : List HostAction :=
  match wordOfYields yields with
  | some v => setScript reg v
  | none => []

end Sys2Proof.Machine
end

