-- ==== Sys2Proof/Machine/System.lean ====
section
/-!
DEFINITION. A system of `N_INST` instances of the core (R8 P2, R63, R183): the product of independent single-instance
models. Instances share no state and have no identifiers; a position in the list says which one the environment drives.
-/

namespace Sys2Proof.Machine

/-- `k` steps of one instance, ending early where a step gives no next state. -/
def run : Nat → State → Host.Outcome State Fault Refusal
  | 0, s => .next s
  | k + 1, s =>
    match step s with
    | .next t => run k t
    | .fault r => .fault r
    | .refused r => .refused r

/-- A system: its instances, each with its own registers, port, fault state and reset (R183). -/
structure System where
  instances : List State
  deriving DecidableEq, Repr

/-- `n` instances just after reset. Each draws free values from a stream of its own, so that nothing relates an
unspecified value of one to one of another (assumption log 4, 8). -/
def System.start (n : Nat) : System :=
  ⟨(List.range n).map fun k => { State.reset with stream := k }⟩

/-- The system with instance `k` replaced. -/
def setInstance (sys : System) (k : Nat) (s : State) : System := ⟨sys.instances.set k s⟩

/-- Instance `k` takes a step and no other changes (R63, R183). -/
def systemStep (k : Nat) (sys : System) : Host.Outcome System Fault Refusal :=
  match sys.instances[k]? with
  | none => .refused .noSuchInstance
  | some s =>
    match step s with
    | .next t => .next (setInstance sys k t)
    | .fault r => .fault r
    | .refused r => .refused r

/-- A schedule: which instance takes each step (R183: any interleaving). -/
def systemRun : List Nat → System → Host.Outcome System Fault Refusal
  | [], sys => .next sys
  | k :: rest, sys =>
    match systemStep k sys with
    | .next sys' => systemRun rest sys'
    | .fault r => .fault r
    | .refused r => .refused r

end Sys2Proof.Machine
end

