-- ==== Sys2Proof/Safety.lean ====
section
/-!
DEFINITION. The terms claims use: which commands read the modulus (R171), when a command completes (R14, R194), what the
commands read (R32), which parts of a state two states share, and the invariants every state of the core has (R28, R29,
R30, R32).
-/

namespace Sys2Proof.Machine

/-- The commands that read `M` and raise DivByZero when it is zero (R170, R171): all but `ADDC` and `SUBC`. -/
def readsModulus : Instr → Bool
  | .addc => false
  | .subc => false
  | .divrem => true
  | .addmod => true
  | .addmodDiv => true
  | .addmodCfp => true
  | .addmodUfp => true
  | .addmodPre => true
  | .addmodPreb => true
  | .addmodThr => true

/-- The strategy a command runs, if it is an `ADDMOD` command (R74, R139). -/
def strategyOf : Instr → Option Strategy
  | .addc => none
  | .subc => none
  | .divrem => none
  | .addmod => some Config.publicStrategy
  | .addmodDiv => some .div
  | .addmodCfp => some .cfp
  | .addmodUfp => some .ufp
  | .addmodPre => some .pre
  | .addmodPreb => some .preb
  | .addmodThr => some .thr

/-- A command completes: the core is not in the fault state (R176), and `M` is not zero if the command divides by it
(R171, R194). -/
def ready (i : Instr) (s : State) : Prop := s.err = false ∧ (readsModulus i = true → s.m ≠ 0)

/-- The two states hold the same operand registers (R21, R22). -/
def sameOperands (s t : State) : Prop := t.x = s.x ∧ t.e = s.e ∧ t.y = s.y ∧ t.m = s.m

/-- The two states hold the same result registers and STATUS fields (R24 to R30). -/
def sameResults (s t : State) : Prop :=
  t.r = s.r ∧ t.q = s.q ∧ t.valid = s.valid ∧ t.f = s.f ∧ t.err = s.err ∧ t.cause = s.cause ∧ t.path = s.path

/-- The two states hold the same of the host's side of the model. -/
def sameHostSide (s t : State) : Prop := t.pending = s.pending ∧ t.yields = s.yields ∧ t.stream = s.stream

/-- The registers that a command reads agree in two states (R32). -/
def readsAgree (i : Instr) (s t : State) : Prop :=
  match i with
  | .addc => s.x = t.x ∧ s.y = t.y
  | .subc => s.x = t.x ∧ s.y = t.y
  | .divrem => s.e = t.e ∧ s.x = t.x ∧ s.m = t.m
  | .addmod => s.x = t.x ∧ s.y = t.y ∧ s.m = t.m
  | .addmodDiv => s.x = t.x ∧ s.y = t.y ∧ s.m = t.m
  | .addmodCfp => s.x = t.x ∧ s.y = t.y ∧ s.m = t.m
  | .addmodUfp => s.x = t.x ∧ s.y = t.y ∧ s.m = t.m
  | .addmodPre => s.x = t.x ∧ s.y = t.y ∧ s.m = t.m
  | .addmodPreb => s.x = t.x ∧ s.y = t.y ∧ s.m = t.m
  | .addmodThr => s.x = t.x ∧ s.y = t.y ∧ s.m = t.m

/-- R29, R30: `ERR` and `CAUSE` fit together and `VALID` is 0 in the fault state; outside it `PATH` is a code that is
produced. -/
def statusLegal (s : State) : Prop :=
  (s.err = false → s.cause = 0 ∧ s.path ≤ 4) ∧
  (s.err = true → (s.cause = causeDivByZero ∨ s.cause = causeIllegalCmd) ∧ s.valid = false)

/-- R28: with neither a result nor a fault, the result registers hold zero. -/
def noResultIsZero (s : State) : Prop :=
  s.err = false → s.valid = false → s.r = 0 ∧ s.q = 0 ∧ s.f = false ∧ s.path = 0

/-- R32: at most one of the fields that only some commands have a result for is not zero: `Q` belongs to `DIVREM`, `F` to
`ADDC` and `SUBC`, `PATH` to `ADDMOD`. -/
def resultShape (s : State) : Prop :=
  s.err = false →
    (s.q ≠ 0 → s.f = false ∧ s.path = 0) ∧ (s.f = true → s.q = 0 ∧ s.path = 0) ∧
      (s.path ≠ 0 → s.q = 0 ∧ s.f = false)

/-- The invariant of the core (R28, R29, R30, R32). -/
def coreInvariant (s : State) : Prop := statusLegal s ∧ noResultIsZero s ∧ resultShape s

/-- The host's duty before its next action (R194, R196 (d), (f)): a command it presents is legal and finds a modulus that
is not zero if it divides by it, and no second host uses the port. -/
def hostObeys (s : State) : HostAction → Prop
  | .wrl addr v =>
    locate addr = .cmd → ∃ i, decode v = .ok i ∧ (readsModulus i = true → s.m ≠ 0)
  | .rdl _ => True
  | .reset => True
  | .secondHost => False

end Sys2Proof.Machine
end

