-- ==== Sys2Proof/Certificates/Slice0/Obligations.lean ====
section
/-!
DEFINITION. The statements for the provers, from the numbered rules of spec/. A docstring names the rule or the section a
statement formalises.
-/

open Sys2Proof Sys2Proof.Machine

/-! ### Reset -/

/-- R37: after reset every register holds zero. -/
def Obligations.ResetLeavesEveryRegisterZero : Prop :=
  State.reset.x = 0 ∧ State.reset.y = 0 ∧ State.reset.m = 0 ∧ State.reset.e = 0 ∧ State.reset.r = 0 ∧
    State.reset.q = 0 ∧ State.reset.valid = false ∧ State.reset.f = false ∧ State.reset.err = false ∧
    State.reset.cause = 0 ∧ State.reset.path = 0

/-- R190: the reset action puts every piece of state to zero, from every state, the fault state included. The host's
side of the model keeps what it held (assumption log 1, 2). -/
def Obligations.ResetActionClearsEveryRegister : Prop :=
  ∀ (s : State) (rest : List HostAction), s.pending = .reset :: rest →
    ∃ t, step s = .next t ∧ t.x = 0 ∧ t.y = 0 ∧ t.m = 0 ∧ t.e = 0 ∧ t.r = 0 ∧ t.q = 0 ∧ t.valid = false ∧
      t.f = false ∧ t.err = false ∧ t.cause = 0 ∧ t.path = 0 ∧ t.pending = rest ∧ t.yields = s.yields

/-- R190: a command that reset abandons leaves no trace. The model takes a command as one step, so the statement
compares a reset after the command with a reset instead of it (assumption log 7). -/
def Obligations.AbandonedCommandLeavesNoTrace : Prop :=
  ∀ (s t : State) (v : Limb), command v s = .next t →
    sameOperands (applyReset s) (applyReset t) ∧ sameResults (applyReset s) (applyReset t) ∧
      sameHostSide (applyReset s) (applyReset t)

/-- 70_reset_and_hazards.md section 1, an inference of the spec ("[derived: from rule R190 and 60_exceptions.md rule
R171]"): straight after reset the commands that divide by `M` raise DivByZero, and `ADDC` and
`SUBC` complete with zero. -/
def Obligations.CommandsStraightAfterReset : Prop :=
  (∀ i, readsModulus i = true → ∃ t, exec i State.reset = .next t ∧ t.err = true ∧ t.cause = 1) ∧
  (∀ i, readsModulus i = false → ∃ t, exec i State.reset = .next t ∧ t.r = 0 ∧ t.f = false ∧ t.valid = true ∧
    t.err = false)

/-! ### The carry primitives -/

/-- R90: the pair AddWithCarry returns. -/
def Obligations.AddWithCarryIsExact : Prop :=
  ∀ a b : Word,
    (addWithCarry a b).1.toNat = (a.toNat + b.toNat) % 2 ^ 256 ∧
    ((addWithCarry a b).2 = true ↔ 2 ^ 256 ≤ a.toNat + b.toNat) ∧
    (addWithCarry a b).1.toNat + (addWithCarry a b).2.toNat * 2 ^ 256 = a.toNat + b.toNat

/-- R91: `ADDC` completes in every state that is not the fault state, whatever `M` and `E` hold, and changes nothing but
the results. -/
def Obligations.AddcWritesSumAndCarry : Prop :=
  decode 0x01 = .ok .addc ∧ ∀ s : State, s.err = false →
    ∃ t, exec .addc s = .next t ∧
      t.r.toNat = (s.x.toNat + s.y.toNat) % 2 ^ 256 ∧
      (t.f = true ↔ 2 ^ 256 ≤ s.x.toNat + s.y.toNat) ∧
      t = { s with r := t.r, f := t.f, q := 0, path := 0, valid := true }

/-- R95: the pair SubWithCarry returns. -/
def Obligations.SubWithCarryIsExact : Prop :=
  ∀ a b : Word,
    ((subWithCarry a b).1.toNat : Int) = ((a.toNat : Int) - b.toNat) % 2 ^ 256 ∧
    ((subWithCarry a b).2 = true ↔ a.toNat < b.toNat) ∧
    ((subWithCarry a b).1.toNat : Int) - ((subWithCarry a b).2.toNat : Int) * 2 ^ 256 = (a.toNat : Int) - b.toNat

/-- R96: `SUBC` computes `X - Y` and the borrow, completes in every state that is not the fault state, and changes
nothing but the results. -/
def Obligations.SubcWritesDifferenceAndBorrow : Prop :=
  decode 0x02 = .ok .subc ∧ ∀ s : State, s.err = false →
    ∃ t, exec .subc s = .next t ∧
      (t.r.toNat : Int) = ((s.x.toNat : Int) - s.y.toNat) % 2 ^ 256 ∧
      (t.f = true ↔ s.x.toNat < s.y.toNat) ∧
      t = { s with r := t.r, f := t.f, q := 0, path := 0, valid := true }

/-- 40_carry_primitives.md section 1, an inference of the spec ("the equality is base-2^64 schoolbook addition"): the
carry chain over limbs computes the pair of AddWithCarry. -/
def Obligations.CarryChainEqualsSum : Prop :=
  ∀ a b : Word, addWithCarryLimbs a b = addWithCarry a b

/-- 40_carry_primitives.md section 2, an inference of the spec ("[derived: from rule R95 and 00_scope.md rule R10]"):
the borrow chain over limbs computes the pair of SubWithCarry. -/
def Obligations.BorrowChainEqualsDifference : Prop :=
  ∀ a b : Word, subWithCarryLimbs a b = subWithCarry a b

/-- 00_scope.md section 4, an inference of the spec ("The two definitions agree"): the limb-level comparison is the
comparison of the integers. -/
def Obligations.LimbComparisonIsIntegerOrder : Prop :=
  ∀ a b : Word, (ltLimbs a b = true ↔ a.toNat < b.toNat)

/-- 40_carry_primitives.md section 3, an inference of the spec ("[derived: from rule R90 and rule R95]"): commutativity,
inverse, identity, negation, and the exact 320-bit sum. -/
def Obligations.CarryLaws : Prop :=
  (∀ a b : Word, addWithCarry a b = addWithCarry b a) ∧
  (∀ a b : Word, (subWithCarry (addWithCarry a b).1 b) = (a, (addWithCarry a b).2)) ∧
  (∀ a : Word, addWithCarry a 0 = (a, false) ∧ subWithCarry a 0 = (a, false) ∧ subWithCarry a a = (0, false)) ∧
  (∀ a : Word, (subWithCarry 0 a).1.toNat = (2 ^ 256 - a.toNat) % 2 ^ 256 ∧
    ((subWithCarry 0 a).2 = true ↔ a ≠ 0)) ∧
  (∀ a b : Word, (wideSum (addWithCarry a b).1 (addWithCarry a b).2).toNat = a.toNat + b.toNat)

/-! ### The long divider -/

/-- R110: the pair DivRem returns meets the division identity. -/
def Obligations.DivRemMeetsContract : Prop :=
  ∀ (n : Wide) (d : Word) (hd : d ≠ 0),
    n.toNat = (divRem n d hd).1.toNat * d.toNat + (divRem n d hd).2.toNat ∧
    (divRem n d hd).2.toNat < d.toNat

/-- 41_divrem.md section 1, an inference of the spec ("[derived: Euclidean division]"): no other pair meets the
contract. -/
def Obligations.DivRemIsUnique : Prop :=
  ∀ (n : Wide) (d : Word) (hd : d ≠ 0) (q r : Nat), n.toNat = q * d.toNat + r → r < d.toNat →
    q = (divRem n d hd).1.toNat ∧ r = (divRem n d hd).2.toNat

/-- R111: `DIVREM` writes the quotient and the remainder of the dividend in `E` and `X` by `M`, and changes nothing
but the results; when `M` is zero it raises DivByZero and leaves the operands alone. -/
def Obligations.DivremWritesQuotientAndRemainder : Prop :=
  decode 0x03 = .ok .divrem ∧ ∀ s : State, s.err = false →
    (s.m ≠ 0 → ∃ t, exec .divrem s = .next t ∧
      s.e.toNat * 2 ^ 256 + s.x.toNat = t.q.toNat * s.m.toNat + t.r.toNat ∧
      t.r.toNat < s.m.toNat ∧
      t = { s with r := t.r, q := t.q, f := false, path := 0, valid := true }) ∧
    (s.m = 0 → ∃ t, exec .divrem s = .next t ∧ t.err = true ∧ t.cause = 1 ∧ t.valid = false ∧ sameOperands s t)

/-- 41_divrem.md section 1, an inference of the spec ("Bounds a model may use `[derived: from rule R110]`"): when the
quotient fits 256 bits, and the quotient of a dividend below 2^257. -/
def Obligations.QuotientWidthBounds : Prop :=
  ∀ s : State, s.err = false → s.m ≠ 0 →
    ∃ t, exec .divrem s = .next t ∧
      (s.e.toNat < s.m.toNat → limb t.q 4 = 0) ∧
      (s.e.toNat ≤ 1 → (limb t.q 4).toNat ≤ 1)

/-- 41_divrem.md section 1, the second part an inference of the spec ("[derived: from rule R110, since r < d]"):
reducing a reduced value returns it. -/
def Obligations.ReductionIsIdempotent : Prop :=
  (∀ (v d : Word) (hd : d ≠ 0), v.toNat < d.toNat → divRem (wideOfWord v) d hd = (0, v)) ∧
  (∀ (n : Wide) (d : Word) (hd : d ≠ 0),
    divRem (wideOfWord (divRem n d hd).2) d hd = (0, (divRem n d hd).2))

/-- 41_divrem.md section 3, an inference of the spec ("[derived: from rule R110]"): the laws of division. -/
def Obligations.DivisionLaws : Prop :=
  (∀ (n : Wide), divRem n 1 (by decide) = (n, 0)) ∧
  (∀ (d : Word) (hd : d ≠ 0), divRem 0 d hd = (0, 0) ∧ divRem (wideOfWord d) d hd = (1, 0)) ∧
  (∀ (n : Wide) (d : Word) (hd : d ≠ 0), (divRem n d hd).2 = 0 ↔ d.toNat ∣ n.toNat) ∧
  (∀ (n : Wide) (k : Nat), k ≤ 255 → ∀ hd : BitVec.ofNat 256 (2 ^ k) ≠ 0,
    (divRem n (BitVec.ofNat 256 (2 ^ k)) hd).1 = n >>> k ∧
    (divRem n (BitVec.ofNat 256 (2 ^ k)) hd).2.toNat = n.toNat % 2 ^ k) ∧
  (∀ (n n' : Wide) (d : Word) (hd : d ≠ 0), n'.toNat = n.toNat + d.toNat →
    (divRem n' d hd).1.toNat = (divRem n d hd).1.toNat + 1 ∧ (divRem n' d hd).2 = (divRem n d hd).2)

/-- 41_divrem.md section 2: the reference algorithm meets the contract. The spec marks the algorithm's details as "from
general knowledge, not in source", asks that a model that uses it prove this, and gives its own check as "evidence, not
proof" (assumption log 10). -/
def Obligations.DivisionAlgorithmMeetsContract : Prop :=
  ∀ (n : Wide) (d : Word) (hd : d ≠ 0), divRemAlg n d hd = divRem n d hd

/-- 41_divrem.md section 2, which the spec marks as "from general knowledge, not in source": the first estimate of a
step is the quotient limb or 1 or 2 above it, and the decrements of the loop and the add-back together make up the
difference. The number of steps is 6 less the divisor's length. -/
def Obligations.EstimateCorrectionBound : Prop :=
  ∀ (n : Wide) (d : Word), d ≠ 0 →
    (divSteps n.toNat d.toNat).length = 6 - divLength d.toNat ∧
    ∀ st ∈ divSteps n.toNat d.toNat,
      st.digit < 2 ^ 64 ∧ st.digit ≤ st.firstEstimate ∧ st.firstEstimate ≤ st.digit + 2 ∧
        st.decrements + st.addBack.toNat = st.firstEstimate - st.digit

/-! ### The modular addition engine -/

/-- R130: every `ADDMOD` command completes when `M` is not zero, writes the modular sum and the path of its strategy,
and changes nothing but the results; when `M` is zero it raises DivByZero and leaves the operands alone. -/
def Obligations.AddmodWritesModularSum : Prop :=
  ∀ i ∈ [Instr.addmod, .addmodDiv, .addmodCfp, .addmodUfp, .addmodPre, .addmodPreb, .addmodThr],
    ∀ s : State, s.err = false →
      (∀ hm : s.m ≠ 0, ∃ t, exec i s = .next t ∧
        t.r.toNat = (s.x.toNat + s.y.toNat) % s.m.toNat ∧ t.r.toNat < s.m.toNat ∧
        1 ≤ t.path.toNat ∧ t.path.toNat ≤ 4 ∧
        (∀ strat, strategyOf i = some strat → t.path = pathCode (addMod strat s.x s.y s.m hm).2) ∧
        t = { s with r := t.r, q := 0, f := false, path := t.path, valid := true }) ∧
      (s.m = 0 → ∃ t, exec i s = .next t ∧ t.err = true ∧ t.cause = 1 ∧ t.valid = false ∧ sameOperands s t)

/-- R142: the six strategies return the same result, the modular sum. -/
def Obligations.StrategiesAgree : Prop :=
  ∀ (st st' : Strategy) (x y m : Word) (hm : m ≠ 0),
    (addMod st x y m hm).1 = (addMod st' x y m hm).1 ∧
    (addMod st x y m hm).1.toNat = (x.toNat + y.toNat) % m.toNat ∧
    (addMod st x y m hm).1.toNat < m.toNat

/-- R133: Division-only always takes the 320-bit division. -/
def Obligations.DivisionOnlyPath : Prop :=
  decode 0x14 = .ok .addmodDiv ∧ ∀ s : State, s.err = false → s.m ≠ 0 →
    ∃ t, exec .addmodDiv s = .next t ∧ t.r.toNat = (s.x.toNat + s.y.toNat) % s.m.toNat ∧ t.path = 1 ∧
      t = { s with r := t.r, q := 0, f := false, path := 1, valid := true }

/-- R134: the four branches of Carry-fast-path, over the exact sum. -/
def Obligations.CarryFastPath : Prop :=
  decode 0x24 = .ok .addmodCfp ∧ ∀ s : State, s.err = false → s.m ≠ 0 →
    ∃ t, exec .addmodCfp s = .next t ∧ t.r.toNat = (s.x.toNat + s.y.toNat) % s.m.toNat ∧
      t.path =
        (if s.x.toNat < s.m.toNat ∧ s.y.toNat < s.m.toNat then
          (if s.x.toNat + s.y.toNat < s.m.toNat then 3 else 4)
        else if s.x.toNat + s.y.toNat < 2 ^ 256 then 2 else 1) ∧
      t = { s with r := t.r, q := 0, f := false, path := t.path, valid := true }

/-- R135: Unified-fast-path subtracts at most once when both operands are reduced and divides the 320-bit sum
otherwise. -/
def Obligations.UnifiedFastPath : Prop :=
  decode 0x34 = .ok .addmodUfp ∧ ∀ s : State, s.err = false → s.m ≠ 0 →
    ∃ t, exec .addmodUfp s = .next t ∧ t.r.toNat = (s.x.toNat + s.y.toNat) % s.m.toNat ∧
      t.path =
        (if s.x.toNat < s.m.toNat ∧ s.y.toNat < s.m.toNat then
          (if s.x.toNat + s.y.toNat < s.m.toNat then 3 else 4)
        else 1) ∧
      t = { s with r := t.r, q := 0, f := false, path := t.path, valid := true }

/-- R136: Pre-reduction never divides the sum: it subtracts exactly when the sum of the reduced operands reaches `M`. -/
def Obligations.PreReductionPath : Prop :=
  decode 0x44 = .ok .addmodPre ∧ ∀ s : State, s.err = false → s.m ≠ 0 →
    ∃ t, exec .addmodPre s = .next t ∧ t.r.toNat = (s.x.toNat + s.y.toNat) % s.m.toNat ∧
      t.path = (if s.x.toNat % s.m.toNat + s.y.toNat % s.m.toNat < s.m.toNat then 3 else 4) ∧
      t = { s with r := t.r, q := 0, f := false, path := t.path, valid := true }

/-- R137: Pre-reduction with borrow-test leaves the same state as Pre-reduction for every input. -/
def Obligations.BorrowTestMatchesPreReduction : Prop :=
  decode 0x54 = .ok .addmodPreb ∧ ∀ s : State, s.err = false → s.m ≠ 0 →
    ∃ t, exec .addmodPreb s = .next t ∧ exec .addmodPre s = .next t ∧
      t.r.toNat = (s.x.toNat + s.y.toNat) % s.m.toNat ∧
      t.path = (if s.x.toNat % s.m.toNat + s.y.toNat % s.m.toNat < s.m.toNat then 3 else 4) ∧
      t = { s with r := t.r, q := 0, f := false, path := t.path, valid := true }

/-- R138: Threshold takes its fast path exactly when the condition on the top limbs holds, and divides otherwise. -/
def Obligations.ThresholdPath : Prop :=
  decode 0x64 = .ok .addmodThr ∧ ∀ s : State, s.err = false → s.m ≠ 0 →
    ∃ t, exec .addmodThr s = .next t ∧ t.r.toNat = (s.x.toNat + s.y.toNat) % s.m.toNat ∧
      t.path =
        (if s.m.toNat / 2 ^ 192 ≠ 0 ∧ s.x.toNat / 2 ^ 192 ≤ s.m.toNat / 2 ^ 192 ∧
            s.y.toNat / 2 ^ 192 ≤ s.m.toNat / 2 ^ 192 then
          (if s.x.toNat % s.m.toNat + s.y.toNat % s.m.toNat < s.m.toNat then 3 else 4)
        else 1) ∧
      t = { s with r := t.r, q := 0, f := false, path := t.path, valid := true }

/-- R139: the public `ADDMOD` does what the command of strategy PUBLIC_STRATEGY does, whichever of the six it is. -/
def Obligations.PublicOperationRunsPublicStrategy : Prop :=
  decode 0x04 = .ok .addmod ∧ ∀ s : State, exec .addmod s =
    (match Config.publicStrategy with
      | .div => exec .addmodDiv s
      | .cfp => exec .addmodCfp s
      | .ufp => exec .addmodUfp s
      | .pre => exec .addmodPre s
      | .preb => exec .addmodPreb s
      | .thr => exec .addmodThr s)

/-- 42_addmod.md section 3, an inference of the spec ("[derived: from rule R132, …]"), the derivation that the
source's open question asks for: under the threshold condition each operand is below twice the modulus, and one
conditional subtraction reduces it. -/
def Obligations.ThresholdConditionBoundsOperands : Prop :=
  ∀ x y m : Word, thresholdHolds x y m = true →
    2 ^ 192 ≤ m.toNat ∧ x.toNat < 2 * m.toNat ∧ y.toNat < 2 * m.toNat ∧
    (preAdjust x m).toNat = x.toNat % m.toNat ∧ (preAdjust y m).toNat = y.toNat % m.toNat

/-! ### Outcomes and faults -/

/-- R14: a datum written to `CMD` has exactly one of three outcomes: the command completes, it faults, or it is ignored
in the fault state. -/
def Obligations.CommandHasOneOfThreeOutcomes : Prop :=
  ∀ (s : State) (v : Limb), ∃ t, command v s = .next t ∧
    ((s.err = false ∧ t.err = false ∧ t.valid = true) ∨
     (s.err = false ∧ t.err = true ∧ t.valid = false) ∨
     (s.err = true ∧ t = s))

/-- R171: the commands that divide by `M` raise DivByZero when it is zero, whatever the strategy and the operands;
`ADDC` and `SUBC` never do. -/
def Obligations.ZeroModulusRaisesDivByZero : Prop :=
  (∀ i, readsModulus i = true → ∀ s : State, s.err = false → s.m = 0 →
    ∃ t, exec i s = .next t ∧ t.err = true ∧ t.cause = 1 ∧ t.valid = false ∧ sameOperands s t ∧ sameHostSide s t) ∧
  (∀ i, readsModulus i = false → ∀ s : State, s.err = false → ∃ t, exec i s = .next t ∧ t.err = false)

/-- R172: every illegal datum written to `CMD` raises IllegalCmd and changes no operand. -/
def Obligations.IllegalDatumRaisesIllegalCmd : Prop :=
  ∀ (s : State) (v : Limb) (rest : List HostAction),
    s.pending = .wrl 0x18 v :: rest → s.err = false → legalDatum v = false →
    ∃ t, step s = .next t ∧ t.err = true ∧ t.cause = 2 ∧ t.valid = false ∧ sameOperands s t ∧ t.pending = rest ∧
      t.yields = s.yields

/-- R174: an illegal datum reports IllegalCmd also when `M` is zero, and a legal one that divides by a zero `M` reports
DivByZero: decode comes before any operand is looked at. The fault entry leaves the operands alone. -/
def Obligations.DecodeIsCheckedBeforeModulus : Prop :=
  ∀ (s : State) (v : Limb), s.err = false →
    (legalDatum v = false → ∃ t, command v s = .next t ∧ t.err = true ∧ t.cause = 2 ∧ t.valid = false ∧
      sameOperands s t) ∧
    (∀ i, decode v = .ok i → readsModulus i = true → s.m = 0 → ∃ t, command v s = .next t ∧ t.err = true ∧
      t.cause = 1 ∧ t.valid = false ∧ sameOperands s t)

/-- R176: in the fault state every host write is ignored, to `CMD` or to any other location; a read of an operand
register answers its limb, a read of `STATUS` shows `ERR` = 1, `VALID` = 0 and the cause, and no read changes a
register. The premise `statusLegal` is part of the invariant that every step keeps. -/
def Obligations.FaultStateIgnoresWritesAndAnswersReads : Prop :=
  ∀ (s : State) (addr : PortAddr) (rest : List HostAction), statusLegal s → s.err = true →
    (∀ v, s.pending = .wrl addr v :: rest → step s = .next { s with pending := rest }) ∧
    (s.pending = .rdl addr :: rest →
      ∃ (t : State) (v : Limb), step s = .next t ∧ t.yields = v :: s.yields ∧ t.pending = rest ∧
        sameOperands s t ∧ sameResults s t ∧
        (∀ i < 4, addr.toNat = i → v = limb s.x i) ∧
        (addr = 0x04 → v = s.e) ∧
        (∀ i < 4, addr.toNat = 0x08 + i → v = limb s.y i) ∧
        (∀ i < 4, addr.toNat = 0x10 + i → v = limb s.m i) ∧
        (addr = 0x19 → v.getLsbD 0 = false ∧ v.getLsbD 2 = true ∧ v.getLsbD 3 = false ∧
          v.extractLsb' 4 4 = s.cause ∧ v.extractLsb' 11 53 = 0))

/-- R29: `ERR` is set, with the cause, by the first command that faults: 1 when a command that divides by `M` was
accepted with `M` zero, 2 when the datum was illegal; no step but a reset clears `ERR` or changes `CAUSE`, and a reset
clears both. -/
def Obligations.FaultIsStickyUntilReset : Prop :=
  ∀ s t : State, step s = .next t →
    (s.err = true → (∀ rest, s.pending ≠ .reset :: rest) → t.err = true ∧ t.cause = s.cause) ∧
    (s.err = false → s.cause = 0 →
      (t.err = false ∧ t.cause = 0) ∨
      ∃ v rest, s.pending = .wrl 0x18 v :: rest ∧ t.err = true ∧
        ((t.cause = 1 ∧ s.m = 0 ∧ ∃ i, decode v = .ok i ∧ readsModulus i = true) ∨
          (t.cause = 2 ∧ legalDatum v = false))) ∧
    (∀ rest, s.pending = .reset :: rest → t.err = false ∧ t.cause = 0)

/-- 70_reset_and_hazards.md section 4: nothing hangs. Every step answers a next state, unless a second host uses the
port. -/
def Obligations.EveryStepAnswers : Prop :=
  ∀ s : State, (∀ rest, s.pending ≠ .secondHost :: rest) → ∃ t, step s = .next t

/-- 20_memory.md section 4: two hosts on one port are refused. -/
def Obligations.SecondHostIsRefused : Prop :=
  ∀ (s : State) (rest : List HostAction), s.pending = .secondHost :: rest → step s = .refused .secondHost

/-! ### Frames and invariants -/

/-- 10_state.md section 1: the core never writes an operand register: every command, completing or faulting, leaves
them and the host's side of the model as they were. -/
def Obligations.CommandsNeverWriteOperands : Prop :=
  ∀ (i : Instr) (s : State), ∃ t, exec i s = .next t ∧ sameOperands s t ∧ sameHostSide s t

/-- R21 (and R22 for `E`): an operand register changes only by a host write to it or by reset. -/
def Obligations.OperandsChangeOnlyByHostOrReset : Prop :=
  ∀ s t : State, step s = .next t → (∀ rest, s.pending ≠ .reset :: rest) →
    ((∀ addr v rest, s.pending = .wrl addr v :: rest → 0x04 ≤ addr.toNat) → t.x = s.x) ∧
    ((∀ addr v rest, s.pending = .wrl addr v :: rest → addr ≠ 0x04) → t.e = s.e) ∧
    ((∀ addr v rest, s.pending = .wrl addr v :: rest → addr.toNat < 0x08 ∨ 0x0B < addr.toNat) → t.y = s.y) ∧
    ((∀ addr v rest, s.pending = .wrl addr v :: rest → addr.toNat < 0x10 ∨ 0x13 < addr.toNat) → t.m = s.m)

/-- 10_state.md section 4: two commands with the same word and the same values in the registers they read give the same
results, whatever else the two states hold. -/
def Obligations.ResultsDependOnOperandsOnly : Prop :=
  ∀ (i : Instr) (s s' : State), ready i s → s'.err = false → readsAgree i s s' →
    ∃ t t', exec i s = .next t ∧ exec i s' = .next t' ∧
      t.r = t'.r ∧ t.q = t'.q ∧ t.f = t'.f ∧ t.path = t'.path ∧ t.valid = t'.valid

/-- 10_state.md section 3 and R32: the invariant of the core is kept by every step from every state that has it. -/
def Obligations.StepKeepsCoreInvariant : Prop :=
  ∀ s t : State, coreInvariant s → step s = .next t → coreInvariant t

/-- The invariant holds just after reset. -/
def Obligations.CoreInvariantHoldsAtReset : Prop := coreInvariant State.reset

/-- 70_reset_and_hazards.md sections 2 and 3: a host that presents only legal commands, and none that divides by a zero
modulus, never sees the fault state. -/
def Obligations.ObedientHostNeverFaults : Prop :=
  ∀ s t : State, s.err = false →
    (∀ a rest, s.pending = a :: rest → hostObeys { s with pending := rest } a) → step s = .next t → t.err = false

/-! ### Decoding and the step -/

/-- R76: the decoder accepts exactly the legal data, and every other datum executes nothing and raises IllegalCmd. -/
def Obligations.DecodeAcceptsExactlyLegalData : Prop :=
  ∀ v : Limb,
    ((∃ i, decode v = .ok i) ↔ legalDatum v = true) ∧
    (legalDatum v = false → ∀ s : State, s.err = false →
      ∃ t, command v s = .next t ∧ t.err = true ∧ t.cause = 2 ∧ t.valid = false ∧ sameOperands s t)

/-- 30_encoding.md section 3: the ten words of the table, written out, decode to the commands they stand for. -/
def Obligations.TableWordsDecode : Prop :=
  decode 0x01 = .ok .addc ∧ decode 0x02 = .ok .subc ∧ decode 0x03 = .ok .divrem ∧ decode 0x04 = .ok .addmod ∧
    decode 0x14 = .ok .addmodDiv ∧ decode 0x24 = .ok .addmodCfp ∧ decode 0x34 = .ok .addmodUfp ∧
    decode 0x44 = .ok .addmodPre ∧ decode 0x54 = .ok .addmodPreb ∧ decode 0x64 = .ok .addmodThr

/-- R75: the ten legal words, written out, are the encodings of the ten commands, and decode and encode agree in both
directions, so every command has exactly one datum among all 2^64: its word zero-extended. -/
def Obligations.DecodeAndEncodeAgree : Prop :=
  (∀ (v : Limb) (i : Instr), decode v = .ok i ↔ v = encode i) ∧
  encode .addc = 0x01 ∧ encode .subc = 0x02 ∧ encode .divrem = 0x03 ∧ encode .addmod = 0x04 ∧
    encode .addmodDiv = 0x14 ∧ encode .addmodCfp = 0x24 ∧ encode .addmodUfp = 0x34 ∧ encode .addmodPre = 0x44 ∧
    encode .addmodPreb = 0x54 ∧ encode .addmodThr = 0x64

/-- 30_encoding.md section 1: a step whose host action is a write of a legal datum to `CMD` runs exactly the command
it decodes to, with that action taken off the list. -/
def Obligations.StepRunsTheDecodedCommand : Prop :=
  ∀ (s : State) (v : Limb) (rest : List HostAction) (i : Instr),
    s.pending = .wrl 0x18 v :: rest → decode v = .ok i → step s = exec i { s with pending := rest }

/-- 60_exceptions.md section 7: with no host action pending the core holds its registers. -/
def Obligations.IdleCoreHoldsItsState : Prop :=
  ∀ s : State, s.pending = [] → step s = .next s

/-! ### The register port -/

/-- 20_memory.md section 1, host read column, outside the fault state: every address answers what the map says, and
nothing else changes. -/
def Obligations.ReadsFollowTheAddressMap : Prop :=
  ∀ (s : State) (addr : PortAddr) (rest : List HostAction),
    s.pending = .rdl addr :: rest → s.err = false →
    ∃ v : Limb, step s = .next { s with pending := rest, yields := v :: s.yields } ∧
      (∀ i < 4, addr.toNat = i → v = s.x.extractLsb' (64 * i) 64) ∧
      (addr.toNat = 0x04 → v = s.e) ∧
      (∀ i < 4, addr.toNat = 0x08 + i → v = s.y.extractLsb' (64 * i) 64) ∧
      (∀ i < 4, addr.toNat = 0x10 + i → v = s.m.extractLsb' (64 * i) 64) ∧
      (addr.toNat = 0x18 → v = 0) ∧
      (∀ i < 4, addr.toNat = 0x20 + i → v = s.r.extractLsb' (64 * i) 64) ∧
      (∀ i < 5, addr.toNat = 0x28 + i → v = s.q.extractLsb' (64 * i) 64) ∧
      ((0x05 ≤ addr.toNat ∧ addr.toNat ≤ 0x07) ∨ (0x0C ≤ addr.toNat ∧ addr.toNat ≤ 0x0F) ∨
        (0x14 ≤ addr.toNat ∧ addr.toNat ≤ 0x17) ∨ (0x1A ≤ addr.toNat ∧ addr.toNat ≤ 0x1F) ∨
        (0x24 ≤ addr.toNat ∧ addr.toNat ≤ 0x27) ∨ 0x2D ≤ addr.toNat → v = 0)

/-- R27: the layout of the limb that a read of `STATUS` answers; the reserved bits read 0 in every state; a read has no
side effect outside the fault state, and a write is ignored. -/
def Obligations.StatusReadShowsEveryField : Prop :=
  ∀ (s : State) (rest : List HostAction),
    (s.pending = .rdl 0x19 :: rest → s.err = false →
      ∃ v : Limb, step s = .next { s with pending := rest, yields := v :: s.yields } ∧
        v.getLsbD 0 = s.valid ∧ v.getLsbD 1 = s.f ∧ v.getLsbD 2 = s.err ∧
        v.extractLsb' 4 4 = s.cause ∧ v.extractLsb' 8 3 = s.path) ∧
    (s.pending = .rdl 0x19 :: rest →
      ∃ (t : State) (v : Limb), step s = .next t ∧ t.yields = v :: s.yields ∧ sameOperands s t ∧ sameResults s t ∧
        v.getLsbD 3 = false ∧ v.extractLsb' 11 53 = 0) ∧
    (∀ v, s.pending = .wrl 0x19 v :: rest → step s = .next { s with pending := rest })

/-- 20_memory.md sections 1 and 2, host write column, outside the fault state: a write to a limb of an operand register
writes that limb and no other, and changes nothing else. -/
def Obligations.WritesChangeOneLimb : Prop :=
  ∀ (s : State) (addr : PortAddr) (v : Limb) (rest : List HostAction),
    s.pending = .wrl addr v :: rest → s.err = false →
    (∀ i < 4, addr.toNat = i → ∃ w : Word, step s = .next { s with pending := rest, x := w } ∧
      ∀ j < 4, limb w j = if j = i then v else limb s.x j) ∧
    (addr.toNat = 0x04 → step s = .next { s with pending := rest, e := v }) ∧
    (∀ i < 4, addr.toNat = 0x08 + i → ∃ w : Word, step s = .next { s with pending := rest, y := w } ∧
      ∀ j < 4, limb w j = if j = i then v else limb s.y j) ∧
    (∀ i < 4, addr.toNat = 0x10 + i → ∃ w : Word, step s = .next { s with pending := rest, m := w } ∧
      ∀ j < 4, limb w j = if j = i then v else limb s.m j)

/-- R55: a reserved location reads 0 and ignores a write. -/
def Obligations.ReservedLocationsAreInert : Prop :=
  ∀ (s : State) (addr : PortAddr) (rest : List HostAction),
    ((0x05 ≤ addr.toNat ∧ addr.toNat ≤ 0x07) ∨ (0x0C ≤ addr.toNat ∧ addr.toNat ≤ 0x0F) ∨
      (0x14 ≤ addr.toNat ∧ addr.toNat ≤ 0x17) ∨ (0x1A ≤ addr.toNat ∧ addr.toNat ≤ 0x1F) ∨
      (0x24 ≤ addr.toNat ∧ addr.toNat ≤ 0x27) ∨ 0x2D ≤ addr.toNat) →
    (s.pending = .rdl addr :: rest → step s = .next { s with pending := rest, yields := 0 :: s.yields }) ∧
    (∀ v, s.pending = .wrl addr v :: rest → step s = .next { s with pending := rest })

/-- R56: a write to `R`, `Q` or `STATUS` is ignored, and a read of `CMD` answers 0 and has no effect. -/
def Obligations.ReadOnlyAndWriteOnlyLocations : Prop :=
  ∀ (s : State) (addr : PortAddr) (rest : List HostAction),
    ((0x20 ≤ addr.toNat ∧ addr.toNat ≤ 0x23) ∨ (0x28 ≤ addr.toNat ∧ addr.toNat ≤ 0x2C) ∨ addr.toNat = 0x19 →
      ∀ v, s.pending = .wrl addr v :: rest → step s = .next { s with pending := rest }) ∧
    (addr.toNat = 0x18 → s.pending = .rdl addr :: rest →
      step s = .next { s with pending := rest, yields := 0 :: s.yields })

/-- 20_memory.md section 2: a read has no side effect and is idempotent: outside the fault state the same read twice
in a row answers the same limb twice. -/
def Obligations.ReadsAreIdempotent : Prop :=
  ∀ (s : State) (addr : PortAddr) (rest : List HostAction),
    s.pending = .rdl addr :: .rdl addr :: rest → s.err = false →
    ∃ v : Limb, run 2 s = .next { s with pending := rest, yields := v :: v :: s.yields }

/-! ### Host scripts -/

/-- 30_encoding.md section 5: `SET` writes its whole register and nothing else. -/
def Obligations.SetWritesTheWholeRegister : Prop :=
  ∀ (s : State) (v : Word) (rest : List HostAction), s.err = false →
    (s.pending = setScript .x v ++ rest → run 4 s = .next { s with pending := rest, x := v }) ∧
    (s.pending = setScript .y v ++ rest → run 4 s = .next { s with pending := rest, y := v }) ∧
    (s.pending = setScript .m v ++ rest → run 4 s = .next { s with pending := rest, m := v })

/-- 30_encoding.md section 5 and 10_state.md section 1: `SETN` makes its argument the dividend of `DIVREM`. -/
def Obligations.SetDividendMakesTheDividend : Prop :=
  ∀ (s : State) (n : Wide) (rest : List HostAction), s.err = false → s.pending = setDividendScript n ++ rest →
    ∃ t, run 5 s = .next t ∧ dividend t = n ∧ t.pending = rest ∧ t.y = s.y ∧ t.m = s.m ∧
      sameResults s t

/-- 30_encoding.md section 5: outside the fault state `GET R` yields `R`, `GET Q` yields `Q`, and the writes of `MOV`
are those of `SET` with the value of `R`. -/
def Obligations.GetYieldsTheResult : Prop :=
  ∀ (s : State) (rest : List HostAction), s.err = false →
    (s.pending = getResultScript ++ rest →
      ∃ t, run 4 s = .next t ∧ wordOfYields t.yields = some s.r ∧ t.pending = rest ∧
        sameOperands s t ∧ sameResults s t ∧ ∀ reg, moveScript reg t.yields = setScript reg s.r) ∧
    (s.pending = getQuotientScript ++ rest →
      ∃ t, run 5 s = .next t ∧ wideOfYields t.yields = some s.q ∧ t.pending = rest ∧
        sameOperands s t ∧ sameResults s t)

/-! ### Instances -/

/-- R63: an access to one instance's port has no effect on another instance. -/
def Obligations.InstanceStepLeavesTheOthers : Prop :=
  ∀ (sys sys' : System) (k : Nat), systemStep k sys = .next sys' →
    sys'.instances.length = sys.instances.length ∧ ∀ j, j ≠ k → sys'.instances[j]? = sys.instances[j]?

/-- 60_exceptions.md section 8: any interleaving of the instances' steps gives each instance the result it has running
alone for its share of the steps. -/
def Obligations.InterleavingEqualsRunningAlone : Prop :=
  ∀ (schedule : List Nat) (sys sys' : System), systemRun schedule sys = .next sys' →
    ∀ (k : Nat) (s : State), sys.instances[k]? = some s →
      ∃ t, sys'.instances[k]? = some t ∧ run (schedule.count k) s = .next t
end

