-- ==== Sys2Proof/Laws/State.lean ====
section
/-!
SUPPORT. One lemma per field of `State` per update, all true by unfolding, so that no later proof unfolds a record
update.
-/

namespace Sys2Proof.Machine

variable (s : State) (res : Result) (code : BitVec 4)

@[simp] theorem commit_x : (commit res s).x = s.x := rfl
@[simp] theorem commit_e : (commit res s).e = s.e := rfl
@[simp] theorem commit_y : (commit res s).y = s.y := rfl
@[simp] theorem commit_m : (commit res s).m = s.m := rfl
@[simp] theorem commit_r : (commit res s).r = res.r := rfl
@[simp] theorem commit_q : (commit res s).q = res.q := rfl
@[simp] theorem commit_valid : (commit res s).valid = true := rfl
@[simp] theorem commit_f : (commit res s).f = res.f := rfl
@[simp] theorem commit_err : (commit res s).err = s.err := rfl
@[simp] theorem commit_cause : (commit res s).cause = s.cause := rfl
@[simp] theorem commit_path : (commit res s).path = res.path := rfl
@[simp] theorem commit_pending : (commit res s).pending = s.pending := rfl
@[simp] theorem commit_yields : (commit res s).yields = s.yields := rfl
@[simp] theorem commit_stream : (commit res s).stream = s.stream := rfl
@[simp] theorem commit_draws : (commit res s).draws = s.draws := rfl

@[simp] theorem raise_x : (raise code s).x = s.x := rfl
@[simp] theorem raise_e : (raise code s).e = s.e := rfl
@[simp] theorem raise_y : (raise code s).y = s.y := rfl
@[simp] theorem raise_m : (raise code s).m = s.m := rfl
@[simp] theorem raise_r : (raise code s).r = Config.freeR s.stream s.draws := rfl
@[simp] theorem raise_q : (raise code s).q = Config.freeQ s.stream s.draws := rfl
@[simp] theorem raise_valid : (raise code s).valid = false := rfl
@[simp] theorem raise_f : (raise code s).f = Config.freeF s.stream s.draws := rfl
@[simp] theorem raise_err : (raise code s).err = true := rfl
@[simp] theorem raise_cause : (raise code s).cause = code := rfl
@[simp] theorem raise_path : (raise code s).path = Config.freePath s.stream s.draws := rfl
@[simp] theorem raise_pending : (raise code s).pending = s.pending := rfl
@[simp] theorem raise_yields : (raise code s).yields = s.yields := rfl
@[simp] theorem raise_stream : (raise code s).stream = s.stream := rfl
@[simp] theorem raise_draws : (raise code s).draws = s.draws + 1 := rfl

@[simp] theorem applyReset_x : (applyReset s).x = 0 := rfl
@[simp] theorem applyReset_e : (applyReset s).e = 0 := rfl
@[simp] theorem applyReset_y : (applyReset s).y = 0 := rfl
@[simp] theorem applyReset_m : (applyReset s).m = 0 := rfl
@[simp] theorem applyReset_r : (applyReset s).r = 0 := rfl
@[simp] theorem applyReset_q : (applyReset s).q = 0 := rfl
@[simp] theorem applyReset_valid : (applyReset s).valid = false := rfl
@[simp] theorem applyReset_f : (applyReset s).f = false := rfl
@[simp] theorem applyReset_err : (applyReset s).err = false := rfl
@[simp] theorem applyReset_cause : (applyReset s).cause = 0 := rfl
@[simp] theorem applyReset_path : (applyReset s).path = 0 := rfl
@[simp] theorem applyReset_pending : (applyReset s).pending = s.pending := rfl
@[simp] theorem applyReset_yields : (applyReset s).yields = s.yields := rfl
@[simp] theorem applyReset_stream : (applyReset s).stream = s.stream := rfl
@[simp] theorem applyReset_draws : (applyReset s).draws = s.draws := rfl

@[simp] theorem reset_x : State.reset.x = 0 := rfl
@[simp] theorem reset_e : State.reset.e = 0 := rfl
@[simp] theorem reset_y : State.reset.y = 0 := rfl
@[simp] theorem reset_m : State.reset.m = 0 := rfl
@[simp] theorem reset_r : State.reset.r = 0 := rfl
@[simp] theorem reset_q : State.reset.q = 0 := rfl
@[simp] theorem reset_valid : State.reset.valid = false := rfl
@[simp] theorem reset_f : State.reset.f = false := rfl
@[simp] theorem reset_err : State.reset.err = false := rfl
@[simp] theorem reset_cause : State.reset.cause = 0 := rfl
@[simp] theorem reset_path : State.reset.path = 0 := rfl
@[simp] theorem reset_pending : State.reset.pending = [] := rfl
@[simp] theorem reset_yields : State.reset.yields = [] := rfl
@[simp] theorem reset_stream : State.reset.stream = 0 := rfl
@[simp] theorem reset_draws : State.reset.draws = 0 := rfl

/-- Two states are equal when all their fields are. -/
theorem State.ext_fields {s t : State} (hx : s.x = t.x) (he : s.e = t.e) (hy : s.y = t.y) (hm : s.m = t.m)
    (hr : s.r = t.r) (hq : s.q = t.q) (hvalid : s.valid = t.valid) (hf : s.f = t.f) (herr : s.err = t.err)
    (hcause : s.cause = t.cause) (hpath : s.path = t.path) (hpending : s.pending = t.pending)
    (hyields : s.yields = t.yields) (hstream : s.stream = t.stream) (hdraws : s.draws = t.draws) : s = t := by
  cases s; cases t; simp_all

end Sys2Proof.Machine
end

