-- ==== Sys2Proof/Laws/Limbs.lean ====
section
/-!
SUPPORT. Limbs of a value: reading the limb just written, leaving the others alone, and rebuilding a value from its
limbs (R10, R51).
-/

namespace Sys2Proof.Machine

theorem getLsbD_limb {n : Nat} (v : BitVec n) (i k : Nat) :
    (limb v i).getLsbD k = (decide (k < 64) && v.getLsbD (64 * i + k)) := by
  simp [limb]

theorem getLsbD_setLimb {n : Nat} (v : BitVec n) (i : Nat) (w : Limb) (k : Nat) (hk : k < n) :
    (setLimb v i w).getLsbD k =
      if 64 * i ≤ k ∧ k < 64 * i + 64 then w.getLsbD (k - 64 * i) else v.getLsbD k := by
  by_cases h1 : 64 * i ≤ k
  · by_cases h2 : k < 64 * i + 64
    · have h4 : k - 64 * i < 64 := by omega
      have h5 : ¬ k < 64 * i := by omega
      simp [setLimb, hk, h1, h2, h4, h5, -BitVec.reduceAllOnes]
    · have h4 : ¬ k - 64 * i < 64 := by omega
      have h5 : w.getLsbD (k - 64 * i) = false := BitVec.getLsbD_of_ge _ _ (by omega)
      simp [setLimb, hk, h2, h4, h5, -BitVec.reduceAllOnes]
  · simp [setLimb, hk, h1, Nat.lt_of_not_le h1, -BitVec.reduceAllOnes]

/-- Reading the limb just written (R51). -/
theorem limb_setLimb_same {n : Nat} (v : BitVec n) (i : Nat) (w : Limb) (hi : 64 * i + 64 ≤ n) :
    limb (setLimb v i w) i = w := by
  apply BitVec.eq_of_getLsbD_eq
  intro k hk
  rw [getLsbD_limb, getLsbD_setLimb _ _ _ _ (by omega)]
  simp [hk]

/-- Writing a limb leaves every other limb alone (R57). -/
theorem limb_setLimb_ne {n : Nat} (v : BitVec n) (i j : Nat) (w : Limb) (hij : i ≠ j) :
    limb (setLimb v i w) j = limb v j := by
  apply BitVec.eq_of_getLsbD_eq
  intro k hk
  rw [getLsbD_limb, getLsbD_limb]
  by_cases hn : 64 * j + k < n
  · rw [getLsbD_setLimb _ _ _ _ hn, if_neg (by omega)]
  · rw [BitVec.getLsbD_of_ge _ _ (by omega), BitVec.getLsbD_of_ge _ _ (by omega)]

theorem limb_toNat {n : Nat} (v : BitVec n) (i : Nat) : (limb v i).toNat = v.toNat / 2 ^ (64 * i) % 2 ^ 64 := by
  simp [limb, Nat.shiftRight_eq_div_pow]

/-- A 256-bit value is its four limbs (R10). -/
theorem word_toNat_eq_limbs (v : Word) :
    v.toNat = (limb v 0).toNat + (limb v 1).toNat * 2 ^ 64 + (limb v 2).toNat * 2 ^ 128 +
      (limb v 3).toNat * 2 ^ 192 := by
  have h := v.isLt
  simp only [limb_toNat]
  norm_num at h ⊢
  omega

/-- A value rebuilt from four limbs has the value of its digits (R10). -/
theorem wordOfLimbs_toNat (a b c d : Limb) :
    (wordOfLimbs a b c d).toNat = a.toNat + b.toNat * 2 ^ 64 + c.toNat * 2 ^ 128 + d.toNat * 2 ^ 192 := by
  have ha := a.isLt
  have hb := b.isLt
  have hc := c.isLt
  simp only [wordOfLimbs, BitVec.toNat_append]
  rw [← Nat.shiftLeft_add_eq_or_of_lt (by omega), ← Nat.shiftLeft_add_eq_or_of_lt (by omega),
    ← Nat.shiftLeft_add_eq_or_of_lt (by omega)]
  simp only [Nat.shiftLeft_eq]
  ring

/-- The limbs of a value rebuild it (R10, R82). -/
theorem wordOfLimbs_limb (v : Word) : wordOfLimbs (limb v 0) (limb v 1) (limb v 2) (limb v 3) = v := by
  apply BitVec.eq_of_toNat_eq
  rw [wordOfLimbs_toNat, ← word_toNat_eq_limbs]

/-- A 256-bit value is determined by its four limbs (R10). -/
theorem word_ext_limbs {v w : Word} (h : ∀ i < 4, limb v i = limb w i) : v = w := by
  rw [← wordOfLimbs_limb v, ← wordOfLimbs_limb w, h 0 (by omega), h 1 (by omega), h 2 (by omega), h 3 (by omega)]

/-- The limbs of a 320-bit value rebuild it (R10, R82). -/
theorem wideOfLimbs_limb (v : Wide) :
    wideOfLimbs (limb v 0) (limb v 1) (limb v 2) (limb v 3) (limb v 4) = v := by
  apply BitVec.eq_of_getLsbD_eq
  intro k hk
  simp only [wideOfLimbs, BitVec.getLsbD_append, getLsbD_limb]
  by_cases h0 : k < 64
  · simp [h0]
  · by_cases h1 : k < 128
    · have : k - 64 < 64 := by omega
      have e : 64 + (k - 64) = k := by omega
      simp [h0, this, e]
    · by_cases h2 : k < 192
      · have a1 : ¬ k - 64 < 64 := by omega
        have a2 : k - 64 - 64 < 64 := by omega
        have e : 128 + (k - 64 - 64) = k := by omega
        simp [h0, a1, a2, e]
      · by_cases h3 : k < 256
        · have a1 : ¬ k - 64 < 64 := by omega
          have a2 : ¬ k - 64 - 64 < 64 := by omega
          have a3 : k - 64 - 64 - 64 < 64 := by omega
          have e : 192 + (k - 64 - 64 - 64) = k := by omega
          simp [h0, a1, a2, a3, e]
        · have a1 : ¬ k - 64 < 64 := by omega
          have a2 : ¬ k - 64 - 64 < 64 := by omega
          have a3 : ¬ k - 64 - 64 - 64 < 64 := by omega
          have a4 : k - 64 - 64 - 64 - 64 < 64 := by omega
          have e : 256 + (k - 64 - 64 - 64 - 64) = k := by omega
          simp [h0, a1, a2, a3, a4, e]

/-- The value of the extended-width shape (R6, R22). -/
theorem wide_toNat (hi : Limb) (lo : Word) : (wide hi lo).toNat = hi.toNat * 2 ^ 256 + lo.toNat := by
  have h := lo.isLt
  simp only [wide, BitVec.toNat_append]
  rw [← Nat.shiftLeft_add_eq_or_of_lt (by omega), Nat.shiftLeft_eq]

/-- The dividend of `DIVREM` as a number (R22). -/
theorem dividend_toNat (s : State) : (dividend s).toNat = s.e.toNat * 2 ^ 256 + s.x.toNat := wide_toNat _ _

theorem wideOfWord_toNat (v : Word) : (wideOfWord v).toNat = v.toNat := by simp [wideOfWord, wide_toNat]

theorem carryLimb_toNat (c : Bool) : (carryLimb c).toNat = c.toNat := by cases c <;> rfl

theorem wideSum_toNat (v : Word) (c : Bool) : (wideSum v c).toNat = c.toNat * 2 ^ 256 + v.toNat := by
  rw [wideSum, wide_toNat, carryLimb_toNat]

end Sys2Proof.Machine
end

