-- ==== Sys2Proof/Laws/Arithmetic.lean ====
section
/-!
SUPPORT. One lemma per pure function that says all of what it computes, over the naturals: AddWithCarry (R90), SubWithCarry
(R95), comparison (R11) and DivRem (R110).
-/

namespace Sys2Proof.Machine

theorem addWithCarry_value (a b : Word) : (addWithCarry a b).1.toNat = (a.toNat + b.toNat) % 2 ^ 256 := by
  simp [addWithCarry]

theorem addWithCarry_flag (a b : Word) : (addWithCarry a b).2 = decide (2 ^ 256 ≤ a.toNat + b.toNat) := rfl

theorem subWithCarry_value (a b : Word) :
    (subWithCarry a b).1.toNat = (a.toNat + (2 ^ 256 - b.toNat)) % 2 ^ 256 := by
  have ha := a.isLt
  have hb := b.isLt
  simp only [subWithCarry, BitVec.toNat_ofInt]
  omega

theorem subWithCarry_flag (a b : Word) : (subWithCarry a b).2 = decide (a.toNat < b.toNat) := rfl

theorem lt_eq (a b : Word) : lt a b = decide (a.toNat < b.toNat) := rfl

theorem toNat_pos_of_ne_zero {n : Nat} {d : BitVec n} (hd : d ≠ 0) : 0 < d.toNat := by
  rcases Nat.eq_zero_or_pos d.toNat with h | h
  · exact absurd (BitVec.eq_of_toNat_eq (by simpa using h)) hd
  · exact h

theorem divRem_quotient (n : Wide) (d : Word) (hd : d ≠ 0) : (divRem n d hd).1.toNat = n.toNat / d.toNat := by
  simp only [divRem, BitVec.toNat_ofNat]
  exact Nat.mod_eq_of_lt (lt_of_le_of_lt (Nat.div_le_self _ _) n.isLt)

theorem divRem_remainder (n : Wide) (d : Word) (hd : d ≠ 0) : (divRem n d hd).2.toNat = n.toNat % d.toNat := by
  simp only [divRem, BitVec.toNat_ofNat]
  exact Nat.mod_eq_of_lt (lt_trans (Nat.mod_lt _ (toNat_pos_of_ne_zero hd)) d.isLt)

/-- A 256-bit operand reduced by division (R136). -/
theorem preReduce_toNat (v m : Word) (hm : m ≠ 0) : (preReduce v m hm).toNat = v.toNat % m.toNat := by
  rw [preReduce, divRem_remainder, wideOfWord_toNat]

/-- The 320-bit sum is the exact sum (R132). -/
theorem wideSum_addWithCarry (x y : Word) :
    (wideSum (addWithCarry x y).1 (addWithCarry x y).2).toNat = x.toNat + y.toNat := by
  have hx := x.isLt
  have hy := y.isLt
  rw [wideSum_toNat, addWithCarry_value, addWithCarry_flag]
  by_cases h : 2 ^ 256 ≤ x.toNat + y.toNat
  · simp only [h, decide_true, Bool.toNat_true]; omega
  · simp only [h, decide_false, Bool.toNat_false]; omega

/-- The division path gives the modular sum (R132, R133). -/
theorem divideSum_value (x y m : Word) (hm : m ≠ 0) :
    (divideSum (addWithCarry x y).1 (addWithCarry x y).2 m hm).1.toNat = (x.toNat + y.toNat) % m.toNat := by
  rw [divideSum, divRem_remainder, wideSum_addWithCarry]

end Sys2Proof.Machine
end

