-- ==== Sys2Proof/Laws/Ops.lean ====
section
/-!
SUPPORT. What the shared operations and the commands can do, said once: accepting (R176), the modulus check (R171), the
corrective subtraction (R141), and the three outcomes of a command (R14).
-/

namespace Sys2Proof.Machine

@[simp] theorem ifAccepting_fault {s t : State} (h : s.err = true) : ifAccepting s t = .next s := by
  simp [ifAccepting, h]

@[simp] theorem ifAccepting_ok {s t : State} (h : s.err = false) : ifAccepting s t = .next t := by
  simp [ifAccepting, h]

theorem withModulus_zero {s : State} {result : s.m ≠ 0 → Result} (h : s.m = 0) :
    withModulus s result = raise causeDivByZero s := by
  simp only [withModulus, dif_pos h]

theorem withModulus_nonzero {s : State} {result : s.m ≠ 0 → Result} (h : s.m ≠ 0) :
    withModulus s result = commit (result h) s := by
  simp only [withModulus, dif_neg h]

/-- The corrective subtraction of R141 (a), (b): of two reduced addends it gives the modular sum, and it subtracts exactly
when the exact sum reaches `m`. -/
theorem correctSum_spec (x y m : Word) (hx : x.toNat < m.toNat) (hy : y.toNat < m.toNat) :
    (correctSum (addWithCarry x y).1 (addWithCarry x y).2 m).1.toNat = (x.toNat + y.toNat) % m.toNat ∧
    (correctSum (addWithCarry x y).1 (addWithCarry x y).2 m).2 =
      (if x.toNat + y.toNat < m.toNat then Path.pass else Path.sub) := by
  have hm := m.isLt
  have hv := addWithCarry_value x y
  have hf := addWithCarry_flag x y
  have hmod : (x.toNat + y.toNat) % m.toNat =
      if x.toNat + y.toNat < m.toNat then x.toNat + y.toNat else x.toNat + y.toNat - m.toNat := by
    split
    · exact Nat.mod_eq_of_lt ‹_›
    · rw [Nat.mod_eq_sub_mod (by omega), Nat.mod_eq_of_lt (by omega)]
  rw [hmod, correctSum, lt_eq, hf]
  by_cases hlt : x.toNat + y.toNat < m.toNat
  · have h1 : ¬ 2 ^ 256 ≤ x.toNat + y.toNat := by omega
    have h2 : (addWithCarry x y).1.toNat < m.toNat := by omega
    have h3 : (addWithCarry x y).1.toNat = x.toNat + y.toNat := by omega
    rw [if_neg (by simp only [h2, decide_eq_true_eq, decide_true]; simp; omega), if_pos hlt, if_pos hlt]
    exact ⟨h3, rfl⟩
  · have h2 : 2 ^ 256 ≤ x.toNat + y.toNat ∨ ¬ (addWithCarry x y).1.toNat < m.toNat := by omega
    have h4 := subWithCarry_value (addWithCarry x y).1 m
    rw [if_pos (by simpa using h2), if_neg hlt, if_neg hlt]
    refine ⟨?_, rfl⟩
    rw [h4]
    omega

/-- What a completing command can write (R32): a path code that exists, and no field that it has no result for. -/
def resultLegal (res : Result) : Prop :=
  res.path ≤ 4 ∧ (res.q ≠ 0 → res.f = false ∧ res.path = 0) ∧ (res.f = true → res.q = 0 ∧ res.path = 0) ∧
    (res.path ≠ 0 → res.q = 0 ∧ res.f = false)

theorem pathCode_range (p : Path) : 1 ≤ (pathCode p).toNat ∧ (pathCode p).toNat ≤ 4 := by cases p <;> decide

/-- A command does one of three things (R14): it is ignored in the fault state, it raises DivByZero, or it completes. -/
theorem exec_cases (i : Instr) (s : State) :
    (s.err = true ∧ exec i s = .next s) ∨
    (s.err = false ∧ readsModulus i = true ∧ s.m = 0 ∧ exec i s = .next (raise causeDivByZero s)) ∨
    (ready i s ∧ ∃ res, resultLegal res ∧ exec i s = .next (commit res s)) := by
  by_cases herr : s.err = true
  · left
    cases i <;>
      simp [exec, execAddc, execSubc, execDivrem, execAddmod, execAddmodDiv, execAddmodCfp, execAddmodUfp,
        execAddmodPre, execAddmodPreb, execAddmodThr, execWithStrategy, herr]
  · right
    have herr : s.err = false := by simpa using herr
    have hzero : (0 : BitVec 3) ≤ 4 := by decide
    have hpath : ∀ st (h : s.m ≠ 0),
        resultLegal { r := (addMod st s.x s.y s.m h).1, path := pathCode (addMod st s.x s.y s.m h).2 } := by
      intro st h
      exact ⟨(pathCode_range (addMod st s.x s.y s.m h).2).2, by simp, by simp, by simp⟩
    have hmodulus : ∀ (body : s.m ≠ 0 → Result), (∀ h, resultLegal (body h)) → readsModulus i = true →
        exec i s = ifAccepting s (withModulus s body) →
        (s.err = false ∧ readsModulus i = true ∧ s.m = 0 ∧ exec i s = .next (raise causeDivByZero s)) ∨
          (ready i s ∧ ∃ res, resultLegal res ∧ exec i s = .next (commit res s)) := by
      intro body hbody hread hex
      by_cases hm : s.m = 0
      · left
        exact ⟨herr, hread, hm, by rw [hex, ifAccepting_ok herr, withModulus_zero hm]⟩
      · right
        exact ⟨⟨herr, fun _ => hm⟩, body hm, hbody hm, by rw [hex, ifAccepting_ok herr, withModulus_nonzero hm]⟩
    cases i with
    | addc => exact .inr ⟨⟨herr, by simp [readsModulus]⟩, _, ⟨hzero, by simp, by simp, by simp⟩, ifAccepting_ok herr⟩
    | subc => exact .inr ⟨⟨herr, by simp [readsModulus]⟩, _, ⟨hzero, by simp, by simp, by simp⟩, ifAccepting_ok herr⟩
    | divrem => exact hmodulus _ (fun h => ⟨hzero, by simp, by simp, by simp⟩) rfl rfl
    | addmod => exact hmodulus _ (hpath _) rfl rfl
    | addmodDiv => exact hmodulus _ (hpath _) rfl rfl
    | addmodCfp => exact hmodulus _ (hpath _) rfl rfl
    | addmodUfp => exact hmodulus _ (hpath _) rfl rfl
    | addmodPre => exact hmodulus _ (hpath _) rfl rfl
    | addmodPreb => exact hmodulus _ (hpath _) rfl rfl
    | addmodThr => exact hmodulus _ (hpath _) rfl rfl

/-- A command run with a strategy, outside the fault state and with a modulus that is not zero (R130). -/
theorem execWithStrategy_ready (st : Strategy) {s : State} (herr : s.err = false) (hm : s.m ≠ 0) :
    execWithStrategy st s = .next (commit
      { r := (addMod st s.x s.y s.m hm).1, path := pathCode (addMod st s.x s.y s.m hm).2 } s) := by
  rw [execWithStrategy, ifAccepting_ok herr, withModulus_nonzero hm]

end Sys2Proof.Machine
end

