-- ==== Sys2Proof/Laws/Step.lean ====
section
/-!
SUPPORT. What a step can do, one lemma per host action (R52, R80, R176), and the places of the address map (R51).
-/

namespace Sys2Proof.Machine

theorem step_idle {s : State} (h : s.pending = []) : step s = .next s := by
  simp [step, performNext, h]

theorem step_action {s : State} {a : HostAction} {rest : List HostAction} (h : s.pending = a :: rest) :
    step s = perform a { s with pending := rest } := by
  simp [step, performNext, h]

/-- Only address 0x18 is `CMD` (R51). -/
theorem locate_eq_cmd_iff : ∀ a : PortAddr, locate a = .cmd ↔ a = cmdAddr := by decide

/-- A write to `CMD` presents a command (R70). -/
theorem perform_command (v : Limb) (s : State) : perform (.wrl cmdAddr v) s = command v s := rfl

/-- A write to any other location is `writeLocation`, unless the core is in the fault state (R51, R176). -/
theorem perform_write {addr : PortAddr} (h : addr ≠ cmdAddr) (v : Limb) (s : State) :
    perform (.wrl addr v) s = ifAccepting s (writeLocation (locate addr) v s) := by
  have hc : locate addr ≠ .cmd := fun hc => h ((locate_eq_cmd_iff addr).mp hc)
  simp only [perform, portWrite]

/-- A legal datum runs its command (R70). -/
theorem command_legal {v : Limb} {i : Instr} (h : decode v = .ok i) (s : State) : command v s = exec i s := by
  simp [command, h]

/-- An illegal datum raises IllegalCmd, unless the core is in the fault state (R172, R176). -/
theorem command_illegal {v : Limb} {e : Illegal} (h : decode v = .error e) (s : State) :
    command v s = ifAccepting s (raise causeIllegalCmd s) := by
  simp [command, h]

/-- Outside the fault state a read changes nothing but the list of limbs read (R57). -/
theorem portRead_accepting {s : State} (h : s.err = false) (addr : PortAddr) :
    portRead addr s = { s with yields := (readLocation (locate addr) s).1 :: s.yields } := by
  cases hl : locate addr <;> simp [portRead, hl, readLocation, readStatus, readResult, h, yieldLimb]

/-- In any state a read changes nothing but the list of limbs read and the count of free values drawn (R57, R175). -/
theorem portRead_registers (addr : PortAddr) (s : State) :
    ∃ v k, portRead addr s = { s with yields := v :: s.yields, draws := k } := by
  cases hl : locate addr <;> simp only [portRead, hl, readLocation, readStatus, readResult, yieldLimb]
  case status => by_cases h : s.err = true <;> simp [h]
  case r => by_cases h : s.err = true <;> simp [h]
  case q => by_cases h : s.err = true <;> simp [h]
  all_goals exact ⟨_, s.draws, rfl⟩

/-- Every step that gives a next state is one of these (R60, R80). -/
theorem step_cases {s t : State} (h : step s = .next t) :
    (s.pending = [] ∧ t = s) ∨
    ∃ a rest, s.pending = a :: rest ∧ perform a { s with pending := rest } = .next t := by
  match hp : s.pending with
  | [] => left; rw [step_idle hp] at h; injection h with h; exact ⟨rfl, h.symm⟩
  | a :: rest => right; exact ⟨a, rest, rfl, by rw [← step_action hp]; exact h⟩

theorem coreRun_next {M : Host.Core} {s t : M.State} (k : Nat) (h : M.step s = .next t) :
    M.run (k + 1) s = M.run k t := by simp only [Host.Core.run, h]

theorem coreRun_fault {M : Host.Core} {s : M.State} {r : M.Fault} (k : Nat) (h : M.step s = .fault r) :
    M.run (k + 1) s = .fault r := by simp only [Host.Core.run, h]

theorem coreRun_refused {M : Host.Core} {s : M.State} {r : M.Refusal} (k : Nat) (h : M.step s = .refused r) :
    M.run (k + 1) s = .refused r := by simp only [Host.Core.run, h]

/-- `run` is the host's own iteration of `step`. -/
theorem core_run_eq : ∀ (k : Nat) (s : State), Sys2Proof.core.run k s = run k s
  | 0, _ => rfl
  | k + 1, s => by
    rw [run]
    match h : step s with
    | .next t => exact (coreRun_next (M := Sys2Proof.core) k h).trans (core_run_eq k t)
    | .fault r => exact coreRun_fault (M := Sys2Proof.core) k h
    | .refused r => exact coreRun_refused (M := Sys2Proof.core) k h

theorem run_zero (s : State) : run 0 s = .next s := rfl

/-- One more step of a run. -/
theorem run_next {s t : State} (k : Nat) (h : step s = .next t) : run (k + 1) s = run k t := by
  rw [run, h]

end Sys2Proof.Machine
end

