-- ==== Sys2Proof/Laws/Division.lean ====
section
/-!
SUPPORT. The arithmetic of one quotient-limb step of the reference division (R117, R118): what the first estimate, the
`while` loop and the add-back can do, over the naturals.
-/

namespace Sys2Proof.Machine

/-- A quotient estimate from above: if `n` is at most the quotient's numerator times a scale, the quotient is at most the
estimate. Used for the first estimate of R117. -/
theorem firstEstimate_ge {w v num vTop p : Nat} (hp : 0 < p) (hv : vTop * p ≤ v) (hw : w < (num + 1) * p)
    (hvt : 0 < vTop) : w / v ≤ num / vTop := by
  have hvpos : 0 < v := lt_of_lt_of_le (Nat.mul_pos hvt hp) hv
  rw [Nat.le_div_iff_mul_le hvt]
  have h1 : w / v * v ≤ w := Nat.div_mul_le_self w v
  have h2 : w / v * (vTop * p) ≤ w / v * v := Nat.mul_le_mul_left _ hv
  have h3 : w / v * vTop * p < (num + 1) * p := by
    rw [Nat.mul_assoc]; omega
  have h4 := Nat.lt_of_mul_lt_mul_right h3
  omega

/-- The first estimate is at most 2 above the quotient limb when the divisor's top limb is at least half the base
(R118). -/
theorem firstEstimate_le {w v num vTop p : Nat} (hv : v < (vTop + 1) * p) (hw : num * p ≤ w) (hpos : 0 < v)
    (hest : num / vTop ≤ 2 * vTop + 2) : num / vTop ≤ w / v + 2 := by
  by_contra hcon
  have hcon : w / v + 3 ≤ num / vTop := by omega
  obtain ⟨k, hk⟩ : ∃ k, num / vTop = k + 2 := Nat.exists_eq_add_of_le' (le_trans (Nat.le_add_left 2 (w / v)) (le_of_lt hcon))
  have hlt : w < k * v := by
    have h1 : w < (w / v + 1) * v := by
      have := Nat.lt_div_mul_add hpos (a := w)
      nlinarith
    have h2 : (w / v + 1) * v ≤ k * v := Nat.mul_le_mul_right _ (by omega)
    omega
  have hle : (k + 2) * vTop ≤ num := by rw [← hk]; exact Nat.div_mul_le_self _ _
  have h5 : k * v ≤ k * ((vTop + 1) * p) := Nat.mul_le_mul_left _ (le_of_lt hv)
  have h6 : k * (vTop + 1) ≤ num := by nlinarith
  have h7 : k * ((vTop + 1) * p) ≤ num * p := by
    rw [← Nat.mul_assoc]; exact Nat.mul_le_mul_right _ h6
  omega

/-- The `while` test of R117 is right: when it holds the estimate exceeds the quotient limb. -/
theorem estimate_decrement {w v q3 v2 p qhat : Nat} (hv : v2 * p ≤ v) (hw : w < (q3 + 1) * p)
    (htest : q3 < qhat * v2) (hpos : 0 < v) : w / v < qhat := by
  rw [Nat.div_lt_iff_lt_mul hpos]
  calc w < (q3 + 1) * p := hw
    _ ≤ qhat * v2 * p := Nat.mul_le_mul_right _ htest
    _ = qhat * (v2 * p) := Nat.mul_assoc _ _ _
    _ ≤ qhat * v := Nat.mul_le_mul_left _ hv

/-- When the `while` test fails the estimate is at most 1 above the quotient limb (R118). -/
theorem estimate_final {w v q3 v2 p qhat : Nat} (hv : v < (v2 + 1) * p) (hw : q3 * p ≤ w)
    (htest : qhat * v2 ≤ q3) (hsmall : qhat ≤ v2 + 1) (hpos : 0 < v) : qhat ≤ w / v + 1 := by
  rcases Nat.eq_zero_or_pos qhat with h0 | h0
  · rw [h0]; exact Nat.zero_le _
  obtain ⟨k, rfl⟩ : ∃ k, qhat = k + 1 := ⟨qhat - 1, by omega⟩
  have h1 : k * v ≤ w := by
    have h5 : k * v ≤ k * ((v2 + 1) * p) := Nat.mul_le_mul_left _ (le_of_lt hv)
    have h6 : k * (v2 + 1) ≤ q3 := by nlinarith
    have h7 : k * ((v2 + 1) * p) ≤ q3 * p := by
      rw [← Nat.mul_assoc]; exact Nat.mul_le_mul_right _ h6
    omega
  have := (Nat.le_div_iff_mul_le hpos).mpr h1
  omega

/-- What the `while` loop can do (R117): the estimate stays at or above the quotient limb, the decrements are counted, and
the loop ends because the running remainder has outgrown a limb or the test failed. -/
theorem correctEstimate_spec (c : EstimateContext) (num Q : Nat)
    (hdec : ∀ qh rh, qh * c.vTop + rh = num → estimateTooLarge c qh rh = true → Q < qh) :
    ∀ fuel qhat rhat k, qhat * c.vTop + rhat = num → Q ≤ qhat → 2 ^ 64 ≤ rhat + fuel * c.vTop →
      Q ≤ (correctEstimate c fuel qhat rhat k).1 ∧
      (correctEstimate c fuel qhat rhat k).1 + (correctEstimate c fuel qhat rhat k).2 = qhat + k ∧
      ∃ rh, (correctEstimate c fuel qhat rhat k).1 * c.vTop + rh = num ∧
        (2 ^ 64 ≤ rh ∨ estimateTooLarge c (correctEstimate c fuel qhat rhat k).1 rh = false)
  | 0, qhat, rhat, k, hnum, hQ, hfuel => ⟨hQ, rfl, rhat, hnum, .inl (by simpa using hfuel)⟩
  | fuel + 1, qhat, rhat, k, hnum, hQ, hfuel => by
    rw [correctEstimate]
    by_cases ht : estimateTooLarge c qhat rhat = true
    · have hlt := hdec qhat rhat hnum ht
      obtain ⟨q', rfl⟩ : ∃ q', qhat = q' + 1 := ⟨qhat - 1, by omega⟩
      have hnum' : q' * c.vTop + (rhat + c.vTop) = num := by rw [← hnum]; ring
      rw [if_pos ht, Nat.add_sub_cancel]
      by_cases hr : 2 ^ 64 ≤ rhat + c.vTop
      · rw [if_pos hr]
        exact ⟨by omega, by omega, rhat + c.vTop, hnum', .inl hr⟩
      · rw [if_neg hr]
        obtain ⟨h1, h2, h3⟩ := correctEstimate_spec c num Q hdec fuel q' (rhat + c.vTop) (k + 1) hnum' (by omega)
          (by rw [Nat.add_mul] at hfuel; omega)
        exact ⟨h1, by omega, h3⟩
    · rw [if_neg ht]
      exact ⟨hQ, rfl, rhat, hnum, .inr (by simpa using ht)⟩

/-- Two neighbouring limbs below the top of `u` (R117: the 2-limb numerator). -/
theorem two_limbs (u i : Nat) (hu : u < 2 ^ (64 * (i + 2))) :
    natLimb u (i + 1) * 2 ^ 64 + natLimb u i = u / 2 ^ (64 * i) := by
  have h1 : u / 2 ^ (64 * (i + 1)) = u / 2 ^ (64 * i) / 2 ^ 64 := by
    rw [Nat.div_div_eq_div_mul, ← Nat.pow_add]
    congr 2
  have h2 : u / 2 ^ (64 * i) < 2 ^ 64 * 2 ^ 64 := by
    rw [Nat.div_lt_iff_lt_mul (by positivity), ← Nat.pow_add, ← Nat.pow_add]
    exact lt_of_lt_of_eq hu (by congr 1; ring)
  rw [natLimb, natLimb, h1]
  generalize u / 2 ^ (64 * i) = w at *
  omega

/-- A limb below a known higher part. -/
theorem next_limb (u i : Nat) :
    u / 2 ^ (64 * (i + 1)) * 2 ^ 64 + natLimb u i = u / 2 ^ (64 * i) := by
  have h1 : u / 2 ^ (64 * (i + 1)) = u / 2 ^ (64 * i) / 2 ^ 64 := by
    rw [Nat.div_div_eq_div_mul, ← Nat.pow_add]
    congr 2
  rw [natLimb, h1]
  generalize u / 2 ^ (64 * i) = w
  omega

/-- A floor by a positive power is a lower bound with room for one less than one unit. -/
theorem div_bounds (w p : Nat) (hp : 0 < p) : w / p * p ≤ w ∧ w < (w / p + 1) * p :=
  ⟨Nat.div_mul_le_self w p, by rw [Nat.mul_comm]; exact Nat.lt_mul_div_succ w hp⟩

/-- What a true `while` test says of the estimate against the two top limbs of the divisor (R117). -/
theorem test_true_bound {qh rh vTop vNext uNext B num : Nat} (hnum : qh * vTop + rh = num)
    (ht : rh * B + uNext < qh * vNext) : num * B + uNext < qh * (vTop * B + vNext) := by
  have e1 : num * B = qh * (vTop * B) + rh * B := by rw [← hnum]; ring
  have e2 : qh * (vTop * B + vNext) = qh * (vTop * B) + qh * vNext := by ring
  omega

/-- What a false `while` test says of the estimate against the two top limbs of the divisor (R117). -/
theorem test_false_bound {qh rh vTop vNext uNext B num : Nat} (hnum : qh * vTop + rh = num)
    (ht : qh * vNext ≤ rh * B + uNext) : qh * (vTop * B + vNext) ≤ num * B + uNext := by
  have e1 : num * B = qh * (vTop * B) + rh * B := by rw [← hnum]; ring
  have e2 : qh * (vTop * B + vNext) = qh * (vTop * B) + qh * vNext := by ring
  omega

/-- A running remainder that has outgrown a limb has the same effect as a false `while` test, for an estimate of at most
`2^64 + 1` (R117). -/
theorem rhat_large_bound {qh rh vNext uNext : Nat} (hq : qh ≤ 2 ^ 64 + 1) (hv : vNext < 2 ^ 64) (hr : 2 ^ 64 ≤ rh) :
    qh * vNext ≤ rh * 2 ^ 64 + uNext := by
  have h1 : qh * vNext ≤ (2 ^ 64 + 1) * (2 ^ 64 - 1) := Nat.mul_le_mul hq (by omega)
  have h2 : 2 ^ 64 * 2 ^ 64 ≤ rh * 2 ^ 64 := Nat.mul_le_mul_right _ hr
  omega

/-- How the two top limbs of the divisor and the three top limbs of the window bound them (R117). -/
structure WindowBounds (c : EstimateContext) (w v num p : Nat) : Prop where
  v_lower : (c.vTop * 2 ^ 64 + c.vNext) * p ≤ v
  v_upper : v < (c.vTop * 2 ^ 64 + c.vNext + 1) * p
  w_lower : (num * 2 ^ 64 + c.uNext) * p ≤ w
  w_upper : w < (num * 2 ^ 64 + c.uNext + 1) * p

/-- A true `while` test means that the estimate is above the quotient limb (R117). -/
theorem too_large_sound {c : EstimateContext} {w v num qh rh : Nat} (hv : 0 < v) (hQ : w / v < 2 ^ 64)
    (hb : 2 ≤ c.dn → ∃ p, WindowBounds c w v num p) (hnum : qh * c.vTop + rh = num)
    (ht : estimateTooLarge c qh rh = true) : w / v < qh := by
  simp only [estimateTooLarge, Bool.or_eq_true, Bool.and_eq_true, decide_eq_true_eq] at ht
  rcases ht with ht | ⟨hdn, ht⟩
  · omega
  · obtain ⟨p, b⟩ := hb hdn
    exact estimate_decrement b.v_lower b.w_upper (test_true_bound hnum ht) hv

/-- When the `while` loop has ended, the estimate is at most 1 above the quotient limb (R118). -/
theorem loop_exit_bound {c : EstimateContext} {w v num qh rh : Nat} (hv : 0 < v)
    (hb : 2 ≤ c.dn → ∃ p, WindowBounds c w v num p) (hone : ¬ 2 ≤ c.dn → v = c.vTop ∧ w = num)
    (hsmall : qh ≤ 2 ^ 64 + 1) (hvTop : 2 ^ 63 ≤ c.vTop) (hvNext : c.vNext < 2 ^ 64)
    (hnum : qh * c.vTop + rh = num) (hexit : 2 ^ 64 ≤ rh ∨ estimateTooLarge c qh rh = false) :
    qh ≤ w / v + 1 := by
  by_cases hdn : 2 ≤ c.dn
  · obtain ⟨p, b⟩ := hb hdn
    refine estimate_final b.v_upper b.w_lower (test_false_bound hnum ?_) ?_ hv
    · rcases hexit with h | h
      · exact rhat_large_bound hsmall hvNext h
      · simp only [estimateTooLarge, Bool.or_eq_false_iff, Bool.and_eq_false_iff, decide_eq_false_iff_not] at h
        rcases h.2 with h5 | h5
        · exact absurd hdn h5
        · exact Nat.not_lt.mp h5
    · omega
  · obtain ⟨e1, e2⟩ := hone hdn
    have : qh ≤ w / v := by
      rw [Nat.le_div_iff_mul_le hv, e1, e2]
      omega
    omega

/-- The whole `while` loop, from the first estimate (R117, R118). -/
theorem loop_spec {c : EstimateContext} {w v num : Nat} (hv : 0 < v) (hQ : w / v < 2 ^ 64)
    (hb : 2 ≤ c.dn → ∃ p, WindowBounds c w v num p) (hone : ¬ 2 ≤ c.dn → v = c.vTop ∧ w = num)
    (hvTop : 2 ^ 63 ≤ c.vTop) (hvNext : c.vNext < 2 ^ 64) (hge : w / v ≤ num / c.vTop)
    (hle : num / c.vTop ≤ 2 ^ 64 + 1) :
    w / v ≤ (correctEstimate c 4 (num / c.vTop) (num % c.vTop) 0).1 ∧
    (correctEstimate c 4 (num / c.vTop) (num % c.vTop) 0).1 ≤ w / v + 1 ∧
    (correctEstimate c 4 (num / c.vTop) (num % c.vTop) 0).1 +
      (correctEstimate c 4 (num / c.vTop) (num % c.vTop) 0).2 = num / c.vTop := by
  obtain ⟨h1, h2, rh, h3, h4⟩ := correctEstimate_spec c num (w / v)
    (fun qh rh h ht => too_large_sound hv hQ hb h ht) 4 (num / c.vTop) (num % c.vTop) 0 (Nat.div_add_mod' _ _) hge
    (by omega)
  exact ⟨h1, loop_exit_bound hv hb hone (by omega) hvTop hvNext h3 h4, h2⟩

/-- One step of the reference division (R117, R118), with a normalised divisor of `k + 1` limbs and a running dividend below
`v * 2^(64*(j+1))`: it yields the true quotient limb, leaves the true rest, and its corrections number 0, 1 or 2. -/
theorem divStep_spec (k v u j : Nat) (hv : v < 2 ^ (64 * (k + 1))) (hnorm : 2 ^ 63 ≤ v / 2 ^ (64 * k))
    (hu : u < v * 2 ^ (64 * (j + 1))) :
    (divStep (k + 1) v u j).digit = u / 2 ^ (64 * j) / v ∧
    (divStep (k + 1) v u j).rest = u - u / 2 ^ (64 * j) / v * v * 2 ^ (64 * j) ∧
    (divStep (k + 1) v u j).firstEstimate ≤ (divStep (k + 1) v u j).digit + 2 ∧
    (divStep (k + 1) v u j).digit + ((divStep (k + 1) v u j).decrements + (divStep (k + 1) v u j).addBack.toNat) =
      (divStep (k + 1) v u j).firstEstimate := by
  have hpk : 0 < 2 ^ (64 * k) := by positivity
  have hpj : 0 < 2 ^ (64 * j) := by positivity
  have hvb := div_bounds v _ hpk
  have hvpos : 0 < v := by
    rcases Nat.eq_zero_or_pos v with h | h
    · rw [h, Nat.zero_div] at hnorm; omega
    · exact h
  have hub := div_bounds u _ hpj
  have hw : u / 2 ^ (64 * j) < v * 2 ^ 64 := by
    rw [Nat.div_lt_iff_lt_mul hpj, Nat.mul_assoc, ← Nat.pow_add]
    exact lt_of_lt_of_eq hu (by congr 2; ring)
  have huB : u < 2 ^ (64 * (j + k + 2)) := by
    calc u < v * 2 ^ (64 * (j + 1)) := hu
      _ ≤ 2 ^ (64 * (k + 1)) * 2 ^ (64 * (j + 1)) := Nat.mul_le_mul_right _ (le_of_lt hv)
      _ = 2 ^ (64 * (j + k + 2)) := by rw [← Nat.pow_add]; congr 1; ring
  have hwin : window (k + 1) u j = u / 2 ^ (64 * j) := by
    rw [window]
    apply Nat.mod_eq_of_lt
    rw [Nat.div_lt_iff_lt_mul hpj, ← Nat.pow_add]
    exact lt_of_lt_of_eq huB (by congr 1; ring)
  have hvTop : natLimb v (k + 1 - 1) = v / 2 ^ (64 * k) := by
    rw [natLimb, Nat.add_sub_cancel]
    apply Nat.mod_eq_of_lt
    rw [Nat.div_lt_iff_lt_mul hpk, ← Nat.pow_add]
    exact lt_of_lt_of_eq hv (by congr 1; ring)
  have hnumEq : natLimb u (j + (k + 1)) * 2 ^ 64 + natLimb u (j + (k + 1) - 1) = u / 2 ^ (64 * j) / 2 ^ (64 * k) := by
    have h := two_limbs u (j + k) huB
    rw [show j + (k + 1) - 1 = j + k by omega, show j + (k + 1) = j + k + 1 by omega, h, Nat.div_div_eq_div_mul,
      ← Nat.pow_add]
    congr 2; ring
  generalize hW : u / 2 ^ (64 * j) = w at *
  generalize hT : v / 2 ^ (64 * k) = vTop at *
  have hwb := div_bounds w _ hpk
  have hfirst_ge : w / v ≤ w / 2 ^ (64 * k) / vTop :=
    firstEstimate_ge hpk hvb.1 hwb.2 (by omega)
  have hnumlt : w / 2 ^ (64 * k) < (vTop + 1) * 2 ^ 64 := by
    rw [Nat.div_lt_iff_lt_mul hpk]
    calc w < v * 2 ^ 64 := hw
      _ ≤ (vTop + 1) * 2 ^ (64 * k) * 2 ^ 64 := Nat.mul_le_mul_right _ (le_of_lt hvb.2)
      _ = (vTop + 1) * 2 ^ 64 * 2 ^ (64 * k) := by ring
  have hfirst_small : w / 2 ^ (64 * k) / vTop ≤ 2 ^ 64 + 1 := by
    have : w / 2 ^ (64 * k) / vTop < 2 ^ 64 + 2 := by
      rw [Nat.div_lt_iff_lt_mul (by omega)]
      have : (vTop + 1) * 2 ^ 64 ≤ (2 ^ 64 + 2) * vTop := by omega
      omega
    omega
  have hfirst_le : w / 2 ^ (64 * k) / vTop ≤ w / v + 2 :=
    firstEstimate_le hvb.2 hwb.1 hvpos (by omega)
  have hQ : w / v < 2 ^ 64 := by rw [Nat.div_lt_iff_lt_mul hvpos, Nat.mul_comm]; exact hw
  let c : EstimateContext := ⟨k + 1, vTop, natLimb v (k + 1 - 2), natLimb u (j + (k + 1) - 2)⟩
  have hb : 2 ≤ c.dn → ∃ p, WindowBounds c w v (w / 2 ^ (64 * k)) p := by
    intro hdn
    have hdn : 2 ≤ k + 1 := hdn
    obtain ⟨k', rfl⟩ : ∃ k', k = k' + 1 := ⟨k - 1, by omega⟩
    have hp' : 0 < 2 ^ (64 * k') := by positivity
    have e1 : vTop * 2 ^ 64 + c.vNext = v / 2 ^ (64 * k') := by
      rw [← hT]; exact next_limb v k'
    have e2 : w / 2 ^ (64 * (k' + 1)) * 2 ^ 64 + c.uNext = w / 2 ^ (64 * k') := by
      have h := next_limb u (j + k')
      have a1 : u / 2 ^ (64 * (j + k' + 1)) = w / 2 ^ (64 * (k' + 1)) := by
        rw [← hW, Nat.div_div_eq_div_mul, ← Nat.pow_add]; congr 2; ring
      have a2 : u / 2 ^ (64 * (j + k')) = w / 2 ^ (64 * k') := by
        rw [← hW, Nat.div_div_eq_div_mul, ← Nat.pow_add]; congr 2; ring
      rw [a1, a2] at h
      exact h
    have hvB := div_bounds v _ hp'
    have hwB := div_bounds w _ hp'
    rw [← e1] at hvB
    rw [← e2] at hwB
    exact ⟨2 ^ (64 * k'), hvB.1, hvB.2, hwB.1, hwB.2⟩
  have hone : ¬ 2 ≤ c.dn → v = c.vTop ∧ w = w / 2 ^ (64 * k) := by
    intro hdn
    have hdn : ¬ 2 ≤ k + 1 := hdn
    obtain rfl : k = 0 := by omega
    refine ⟨?_, by simp⟩
    show v = vTop
    rw [← hT]; simp
  obtain ⟨h1, hfinal, h2⟩ := loop_spec (c := c) hvpos hQ hb hone (by show 2 ^ 63 ≤ vTop; omega)
    (Nat.mod_lt _ (by positivity)) hfirst_ge hfirst_small
  have h1 : w / v ≤ (correctEstimate c 4 (w / 2 ^ (64 * k) / vTop) (w / 2 ^ (64 * k) % vTop) 0).1 := h1
  have hfinal : (correctEstimate c 4 (w / 2 ^ (64 * k) / vTop) (w / 2 ^ (64 * k) % vTop) 0).1 ≤ w / v + 1 := hfinal
  have h2 : (correctEstimate c 4 (w / 2 ^ (64 * k) / vTop) (w / 2 ^ (64 * k) % vTop) 0).1 +
      (correctEstimate c 4 (w / 2 ^ (64 * k) / vTop) (w / 2 ^ (64 * k) % vTop) 0).2 = w / 2 ^ (64 * k) / vTop := h2
  have hstep : divStep (k + 1) v u j =
      (let est := correctEstimate c 4 (w / 2 ^ (64 * k) / vTop) (w / 2 ^ (64 * k) % vTop) 0
      let t : Int := (w : Int) - (est.1 * v : Nat)
      if t < 0 then
        ⟨w / 2 ^ (64 * k) / vTop, est.2, true, est.1 - 1, replaceWindow (k + 1) u j (t + v).toNat⟩
      else ⟨w / 2 ^ (64 * k) / vTop, est.2, false, est.1, replaceWindow (k + 1) u j t.toNat⟩) := by
    simp only [divStep, hvTop, hnumEq, hwin]
    rfl
  rw [hstep]
  clear hstep
  generalize correctEstimate c 4 (w / 2 ^ (64 * k) / vTop) (w / 2 ^ (64 * k) % vTop) 0 = est at h1 h2 hfinal ⊢
  have hdm := Nat.div_add_mod' w v
  have hml := Nat.mod_lt w hvpos
  have hrep : ∀ t, replaceWindow (k + 1) u j t = u - w * 2 ^ (64 * j) + t * 2 ^ (64 * j) := by
    intro t; rw [replaceWindow, hwin]
  have hrest : u - w * 2 ^ (64 * j) + w % v * 2 ^ (64 * j) = u - w / v * v * 2 ^ (64 * j) := by
    have e : w * 2 ^ (64 * j) = w / v * v * 2 ^ (64 * j) + w % v * 2 ^ (64 * j) := by
      rw [← Nat.add_mul, hdm]
    omega
  rcases Nat.lt_or_eq_of_le hfinal with hlt | heq
  · have he : est.1 = w / v := by omega
    have ht : ¬ ((w : Int) - (est.1 * v : Nat) < 0) := by rw [he]; omega
    have htn : ((w : Int) - (est.1 * v : Nat)).toNat = w % v := by rw [he]; omega
    simp only [if_neg ht, htn, hrep, hrest]
    exact ⟨he, trivial, by rw [he]; exact hfirst_le, by rw [Bool.toNat_false, Nat.add_zero]; exact h2⟩
  · have hev : est.1 * v = w / v * v + v := by rw [heq]; ring
    have ht : (w : Int) - (est.1 * v : Nat) < 0 := by omega
    have htn : ((w : Int) - (est.1 * v : Nat) + v).toNat = w % v := by omega
    simp only [if_pos ht, htn, hrep, hrest]
    have he : est.1 - 1 = w / v := by rw [heq, Nat.add_sub_cancel]
    refine ⟨he, trivial, by rw [he]; exact hfirst_le, ?_⟩
    rw [Bool.toNat_true, he, ← h2, heq, Nat.add_assoc, Nat.add_comm 1]

/-- What every step of R117 answers: a limb, and a first estimate 0, 1 or 2 above it, the corrections making up the
difference. -/
def DivStep.Sound (st : DivStep) : Prop :=
  st.digit < 2 ^ 64 ∧ st.firstEstimate ≤ st.digit + 2 ∧
    st.digit + (st.decrements + st.addBack.toNat) = st.firstEstimate

/-- The quotient and the remainder by `v` after the part of `u` above `v * p` is taken off. -/
theorem div_mod_chunk (u v p : Nat) (hv : 0 < v) (hp : 0 < p) :
    u / p / v * p + u % (v * p) / v = u / v ∧ u % (v * p) % v = u % v ∧ u - u / p / v * v * p = u % (v * p) ∧
      u % (v * p) < v * p := by
  have hD : u / p / v = u / (v * p) := by rw [Nat.div_div_eq_div_mul, Nat.mul_comm]
  have h5 := Nat.div_add_mod u (v * p)
  rw [hD]
  refine ⟨?_, Nat.mod_mul_right_mod .., ?_, Nat.mod_lt _ (Nat.mul_pos hv hp)⟩
  · conv_rhs => rw [← h5, Nat.mul_assoc, Nat.mul_add_div hv]
    rw [Nat.mul_comm p]
  · have h6 : u / (v * p) * v * p = v * p * (u / (v * p)) := by ring
    rw [h6]
    omega

/-- The recursion of the main loop (R117, phase 2). -/
theorem divLoop_succ (dn v n u : Nat) :
    divLoop dn v (n + 1) u = divStep dn v u n :: divLoop dn v n (divStep dn v u n).rest := rfl

/-- The main loop of R117 with a normalised divisor: it spells the quotient, leaves the remainder, and each step is sound. -/
theorem divLoop_spec (k v n u q : Nat) (hv : v < 2 ^ (64 * (k + 1))) (hnorm : 2 ^ 63 ≤ v / 2 ^ (64 * k))
    (hu : u < v * 2 ^ (64 * n)) :
    (divLoop (k + 1) v n u).foldl (fun q st => q * 2 ^ 64 + st.digit) q = q * 2 ^ (64 * n) + u / v ∧
    (divLoop (k + 1) v n u).foldl (fun _ st => st.rest) u = u % v ∧
    (divLoop (k + 1) v n u).length = n ∧
    ∀ st ∈ divLoop (k + 1) v n u, st.Sound := by
  induction n generalizing u q with
  | zero =>
    have hu : u < v := by simpa using hu
    simp [divLoop, Nat.div_eq_of_lt hu, Nat.mod_eq_of_lt hu]
  | succ n ih =>
    obtain ⟨h1, h2, h3, h4⟩ := divStep_spec k v u n hv hnorm hu
    have hp : 0 < 2 ^ (64 * n) := by positivity
    have hvpos : 0 < v := by
      rcases Nat.eq_zero_or_pos v with h | h
      · rw [h, Nat.zero_div] at hnorm; omega
      · exact h
    obtain ⟨c1, c2, c3, c4⟩ := div_mod_chunk u v _ hvpos hp
    have hB : 2 ^ (64 * (n + 1)) = 2 ^ 64 * 2 ^ (64 * n) := by rw [← Nat.pow_add]; congr 1; ring
    have hdig : u / 2 ^ (64 * n) / v < 2 ^ 64 := by
      rw [Nat.div_lt_iff_lt_mul hvpos, Nat.div_lt_iff_lt_mul hp, Nat.mul_comm (2 ^ 64), Nat.mul_assoc, ← hB]
      exact hu
    rw [c3] at h2
    obtain ⟨i1, i2, i3, i4⟩ := ih (divStep (k + 1) v u n).rest (q * 2 ^ 64 + (divStep (k + 1) v u n).digit) (by rw [h2]; exact c4)
    have hs : (divStep (k + 1) v u n).Sound := ⟨by rw [h1]; exact hdig, h3, h4⟩
    rw [divLoop_succ]
    generalize divStep (k + 1) v u n = st at *
    refine ⟨?_, by rw [List.foldl_cons, i2, h2, c2], by rw [List.length_cons, i3], ?_⟩
    · rw [List.foldl_cons, i1, h1, h2, ← c1, hB, Nat.add_mul, Nat.mul_assoc, Nat.add_assoc]
    · intro st' hmem
      rcases List.mem_cons.mp hmem with rfl | h
      · exact hs
      · exact i4 _ h

/-- The length R117 finds: the limb it ends at is not zero, and nothing stands above it. -/
theorem topNonzeroLimb_spec (d : Nat) (hd : d ≠ 0) (h : d < 2 ^ 256) :
    topNonzeroLimb d ≤ 3 ∧ d < 2 ^ (64 * (topNonzeroLimb d + 1)) ∧
      d / 2 ^ (64 * topNonzeroLimb d) = natLimb d (topNonzeroLimb d) ∧ natLimb d (topNonzeroLimb d) ≠ 0 := by
  by_cases c3 : natLimb d 3 ≠ 0
  · rw [show topNonzeroLimb d = 3 by rw [topNonzeroLimb, if_pos c3]]
    simp only [natLimb, Nat.reduceMul, Nat.reduceAdd] at *; omega
  by_cases c2 : natLimb d 2 ≠ 0
  · rw [show topNonzeroLimb d = 2 by rw [topNonzeroLimb, if_neg c3, if_pos c2]]
    simp only [natLimb, Nat.reduceMul, Nat.reduceAdd] at *; omega
  by_cases c1 : natLimb d 1 ≠ 0
  · rw [show topNonzeroLimb d = 1 by rw [topNonzeroLimb, if_neg c3, if_neg c2, if_pos c1]]
    simp only [natLimb, Nat.reduceMul, Nat.reduceAdd] at *; omega
  · rw [show topNonzeroLimb d = 0 by rw [topNonzeroLimb, if_neg c3, if_neg c2, if_neg c1]]
    simp only [natLimb, Nat.reduceMul, Nat.reduceAdd] at *; omega

/-- The shift of phase 1 of R117 normalises the divisor: its top limb has its top bit set, and no bit is lost. -/
theorem divShift_spec (d : Nat) (hd : d ≠ 0) (h : d < 2 ^ 256) :
    d * 2 ^ divShift d < 2 ^ (64 * (topNonzeroLimb d + 1)) ∧
      2 ^ 63 ≤ d * 2 ^ divShift d / 2 ^ (64 * topNonzeroLimb d) ∧ divShift d ≤ 63 := by
  obtain ⟨-, hlt, htop, hne⟩ := topNonzeroLimb_spec d hd h
  have hp : 0 < 2 ^ (64 * topNonzeroLimb d) := by positivity
  have hb := div_bounds d _ hp
  rw [divShift, clz64]
  generalize topNonzeroLimb d = k at *
  rw [htop] at hb
  have hw64 : natLimb d k < 2 ^ 64 := Nat.mod_lt _ (by positivity)
  generalize natLimb d k = w at *
  have hl1 : 2 ^ w.log2 ≤ w := Nat.log2_self_le hne
  have hl2 : w < 2 ^ (w.log2 + 1) := Nat.lt_log2_self
  have hl : w.log2 < 64 := (Nat.log2_lt hne).mpr hw64
  generalize w.log2 = l at *
  have e63 : 2 ^ l * 2 ^ (63 - l) = 2 ^ 63 := by rw [← Nat.pow_add]; congr 1; omega
  have e64 : 2 ^ (l + 1) * 2 ^ (63 - l) = 2 ^ 64 := by rw [← Nat.pow_add]; congr 1; omega
  refine ⟨?_, ?_, Nat.sub_le _ _⟩
  · calc d * 2 ^ (63 - l) < (w + 1) * 2 ^ (64 * k) * 2 ^ (63 - l) := Nat.mul_lt_mul_of_pos_right hb.2 (by positivity)
      _ ≤ 2 ^ (l + 1) * 2 ^ (64 * k) * 2 ^ (63 - l) := Nat.mul_le_mul_right _ (Nat.mul_le_mul_right _ hl2)
      _ = 2 ^ (l + 1) * 2 ^ (63 - l) * 2 ^ (64 * k) := Nat.mul_right_comm _ _ _
      _ = 2 ^ (64 * (k + 1)) := by rw [e64, ← Nat.pow_add]; congr 1; ring
  · rw [Nat.le_div_iff_mul_le hp, ← e63]
    calc 2 ^ l * 2 ^ (63 - l) * 2 ^ (64 * k) ≤ w * 2 ^ (63 - l) * 2 ^ (64 * k) :=
          Nat.mul_le_mul_right _ (Nat.mul_le_mul_right _ hl1)
      _ = w * 2 ^ (64 * k) * 2 ^ (63 - l) := Nat.mul_right_comm _ _ _
      _ ≤ d * 2 ^ (63 - l) := Nat.mul_le_mul_right _ hb.1

end Sys2Proof.Machine
end

