-- ==== Sys2Proof/Laws/PerInstr.lean ====
section
/-!
SUPPORT. The family `LegalWord`: the word of every command has bit 7 clear and names its strategy only where it may (R71,
R76). One lemma per constructor.
-/

namespace Sys2Proof.Laws.LegalWord

/-- The fields of the command word are those of the command (R71), and its datum is legal (R76). -/
def Statement (i : Instr) : Prop :=
  legalDatum (encode i) = true ∧ opField (encode i) = opOf i ∧ stratField (encode i) = stratOf i ∧
    (opOf i ≠ 4 → stratOf i = 0)

theorem addc : Statement .addc := by unfold Statement; decide
theorem subc : Statement .subc := by unfold Statement; decide
theorem divrem : Statement .divrem := by unfold Statement; decide
theorem addmod : Statement .addmod := by unfold Statement; decide
theorem addmodDiv : Statement .addmodDiv := by unfold Statement; decide
theorem addmodCfp : Statement .addmodCfp := by unfold Statement; decide
theorem addmodUfp : Statement .addmodUfp := by unfold Statement; decide
theorem addmodPre : Statement .addmodPre := by unfold Statement; decide
theorem addmodPreb : Statement .addmodPreb := by unfold Statement; decide
theorem addmodThr : Statement .addmodThr := by unfold Statement; decide

end Sys2Proof.Laws.LegalWord
end

