-- ==== Sys2Proof/Laws/Port.lean ====
section
/-!
SUPPORT. The register port, said once: which location every address names (R51), what a read and a write of it do outside
the fault state (R52, R57), that a write does nothing in it (R176), and the bits of the STATUS limb (R27).
-/

namespace Sys2Proof.Machine

theorem locate_x : ∀ a : PortAddr, a.toNat < 4 → locate a = .x a.toNat := by decide

theorem locate_e : ∀ a : PortAddr, a.toNat = 0x04 → locate a = .e := by decide

theorem locate_y : ∀ a : PortAddr, 0x08 ≤ a.toNat → a.toNat < 0x0C → locate a = .y (a.toNat - 0x08) := by decide

theorem locate_m : ∀ a : PortAddr, 0x10 ≤ a.toNat → a.toNat < 0x14 → locate a = .m (a.toNat - 0x10) := by decide

theorem locate_cmd : ∀ a : PortAddr, a.toNat = 0x18 → locate a = .cmd := by decide

theorem locate_status : ∀ a : PortAddr, a.toNat = 0x19 → locate a = .status := by decide

theorem locate_r : ∀ a : PortAddr, 0x20 ≤ a.toNat → a.toNat < 0x24 → locate a = .r (a.toNat - 0x20) := by decide

theorem locate_q : ∀ a : PortAddr, 0x28 ≤ a.toNat → a.toNat < 0x2D → locate a = .q (a.toNat - 0x28) := by decide

/-- The six reserved ranges of the address map (R51, R55). -/
theorem locate_reserved : ∀ a : PortAddr,
    ((0x05 ≤ a.toNat ∧ a.toNat ≤ 0x07) ∨ (0x0C ≤ a.toNat ∧ a.toNat ≤ 0x0F) ∨ (0x14 ≤ a.toNat ∧ a.toNat ≤ 0x17) ∨
      (0x1A ≤ a.toNat ∧ a.toNat ≤ 0x1F) ∨ (0x24 ≤ a.toNat ∧ a.toNat ≤ 0x27) ∨ 0x2D ≤ a.toNat) →
    locate a = .reserved := by decide

/-- The fields of the STATUS limb stand where R27 puts them, and its reserved bits are 0. -/
theorem statusWord_fields (p : BitVec 3) (c : BitVec 4) (err f valid : Bool) :
    (statusWord p c err f valid).getLsbD 0 = valid ∧ (statusWord p c err f valid).getLsbD 1 = f ∧
    (statusWord p c err f valid).getLsbD 2 = err ∧ (statusWord p c err f valid).getLsbD 3 = false ∧
    (statusWord p c err f valid).extractLsb' 4 4 = c ∧ (statusWord p c err f valid).extractLsb' 8 3 = p ∧
    (statusWord p c err f valid).extractLsb' 11 53 = 0 := by
  revert p c err f valid; decide

/-- Writing a limb of a 256-bit register changes that limb and no other (R57). -/
theorem limb_setLimb (w : Word) (i : Nat) (v : Limb) (hi : i < 4) (j : Nat) :
    limb (setLimb w i v) j = if j = i then v else limb w j := by
  split
  · subst j; exact limb_setLimb_same _ _ _ (by omega)
  · exact limb_setLimb_ne _ _ _ _ (by omega)

/-- Writing all four limbs of a register writes the register (R82). -/
theorem setLimb_all (w v : Word) :
    setLimb (setLimb (setLimb (setLimb w 0 (limb v 0)) 1 (limb v 1)) 2 (limb v 2)) 3 (limb v 3) = v := by
  apply word_ext_limbs
  intro i hi
  simp only [limb_setLimb _ _ _ (show 0 < 4 by decide), limb_setLimb _ _ _ (show 1 < 4 by decide),
    limb_setLimb _ _ _ (show 2 < 4 by decide), limb_setLimb _ _ _ (show 3 < 4 by decide)]
  repeat' split
  all_goals first | (subst i; rfl) | omega

/-- A write to a location other than `CMD` changes no result register and no STATUS field (R56). -/
theorem writeLocation_sameResults (l : Location) (v : Limb) (s : State) : sameResults s (writeLocation l v s) := by
  cases l <;> exact ⟨rfl, rfl, rfl, rfl, rfl, rfl, rfl⟩

/-- In the fault state every write is ignored (R176). -/
theorem perform_write_fault (addr : PortAddr) (v : Limb) {s : State} (h : s.err = true) :
    perform (.wrl addr v) s = .next s := by
  by_cases hc : addr = cmdAddr
  · subst hc
    rw [perform_command]
    cases hd : decode v with
    | ok i =>
      rw [command_legal hd]
      rcases exec_cases i s with ⟨_, h2⟩ | ⟨h1, _⟩ | ⟨⟨h1, _⟩, _⟩
      · exact h2
      · rw [h] at h1; cases h1
      · rw [h] at h1; cases h1
    | error e => rw [command_illegal hd, ifAccepting_fault h]
  · rw [perform_write hc, ifAccepting_fault h]

/-- Outside the fault state what a read answers does not depend on the host's side of the model. -/
theorem readLocation_hostSide {s : State} (h : s.err = false) (l : Location) (p : List HostAction) (y : List Limb) :
    (readLocation l { s with pending := p, yields := y }).1 = (readLocation l s).1 := by
  cases l <;> simp [readLocation, readStatus, readResult, h]

/-- One step with a read in front, outside the fault state (R52). -/
theorem step_read {s : State} {addr : PortAddr} {rest : List HostAction} (hp : s.pending = .rdl addr :: rest)
    (h : s.err = false) :
    step s = .next { s with pending := rest, yields := (readLocation (locate addr) s).1 :: s.yields } := by
  rw [step_action hp]
  show Host.Outcome.next (portRead addr { s with pending := rest }) = _
  rw [portRead_accepting (by exact h)]
  exact congrArg (fun v => Host.Outcome.next { s with pending := rest, yields := v :: s.yields })
    (readLocation_hostSide h (locate addr) rest s.yields)

/-- One step with a write to a location other than `CMD` in front, outside the fault state (R52). -/
theorem step_write {s : State} {addr : PortAddr} {v : Limb} {rest : List HostAction}
    (hp : s.pending = .wrl addr v :: rest) (h : s.err = false) (hc : locate addr ≠ .cmd) :
    step s = .next (writeLocation (locate addr) v { s with pending := rest }) := by
  rw [step_action hp, perform_write (fun ha => hc (by rw [ha]; rfl)), ifAccepting_ok (by exact h)]

end Sys2Proof.Machine
end

