-- ==== Sys2Proof/Laws/Strategies.lean ====
section
/-!
SUPPORT. The two tests of the Threshold strategy over the naturals (R138): its condition on the top limbs, and its one
conditional subtraction per operand.
-/

namespace Sys2Proof.Machine

/-- The top limb of a 256-bit value is its quotient by 2^192 (R10). -/
theorem topLimb_toNat (v : Word) : (topLimb v).toNat = v.toNat / 2 ^ 192 := by
  have := v.isLt
  rw [topLimb, limb_toNat]
  norm_num
  omega

/-- The condition `T` of R138 over the naturals. -/
theorem thresholdHolds_iff (x y m : Word) :
    thresholdHolds x y m = true ↔
      m.toNat / 2 ^ 192 ≠ 0 ∧ x.toNat / 2 ^ 192 ≤ m.toNat / 2 ^ 192 ∧ y.toNat / 2 ^ 192 ≤ m.toNat / 2 ^ 192 := by
  simp only [thresholdHolds, Bool.and_eq_true, bne_iff_ne, ne_eq, decide_eq_true_eq, BitVec.le_def,
    ← BitVec.toNat_inj, topLimb_toNat]
  simp [and_assoc]

/-- One conditional subtraction reduces an operand below twice the modulus (R138). -/
theorem preAdjust_toNat (v m : Word) (h : v.toNat < 2 * m.toNat) : (preAdjust v m).toNat = v.toNat % m.toNat := by
  have hv := v.isLt
  have hm := m.isLt
  rw [preAdjust, lt_eq]
  by_cases hl : v.toNat < m.toNat
  · simp [hl, Nat.mod_eq_of_lt hl]
  · simp only [hl, decide_false, Bool.false_eq_true, if_false]
    rw [subWithCarry_value, Nat.mod_eq_sub_mod (a := v.toNat) (by omega),
      Nat.mod_eq_of_lt (a := v.toNat - m.toNat) (by omega)]
    omega

end Sys2Proof.Machine
end

