-- ==== Sys2Proof/Tests/Slice0.lean ====
section
/-!
SUPPORT. The model's own tests. Expected values are those of spec/ (95_test_vectors.md, by the vector's name, and the worked
examples of the rules), never the model's own answers. The witness theorems show that the hypotheses of a statement can be
met together.
-/

namespace Sys2Proof.Tests

open Sys2Proof Sys2Proof.Machine

/-- The state after reset with the operand registers written. -/
def start (x y m : Word) (e : Limb) : State := { State.reset with x := x, y := y, m := m, e := e }

/-- What a command leaves in `R`, `Q` and STATUS, if it gives a next state. -/
def results (o : Host.Outcome State Fault Refusal) : Option (Word × Wide × Limb) :=
  match o with
  | .next t => some (t.r, t.q, statusWord t.path t.cause t.err t.f t.valid)
  | .fault _ => none
  | .refused _ => none

/-- The STATUS fields that a fault leaves specified, `VALID`, `ERR` and `CAUSE`, and the operand registers. -/
def faultView (o : Host.Outcome State Fault Refusal) : Option (Bool × Bool × BitVec 4 × Word × Limb × Word × Word) :=
  match o with
  | .next t => some (t.valid, t.err, t.cause, t.x, t.e, t.y, t.m)
  | .fault _ => none
  | .refused _ => none

/-- The limbs the host has read, newest first. -/
def readsOf (o : Host.Outcome State Fault Refusal) : Option (List Limb) :=
  match o with
  | .next t => some t.yields
  | .fault _ => none
  | .refused _ => none

/-- A host script run from a state. -/
def runScript (s : State) (script : List HostAction) : Host.Outcome State Fault Refusal :=
  run script.length { s with pending := script }

/-! ### Well-formed data (R76): each check refuses the datum beside it -/

theorem test_upper_bits_refused : upperClear 0x101 = false ∧ legalDatum 0x101 = false := by decide
theorem test_top_bit_refused : legalDatum 0x8000000000000001 = false := by decide
theorem test_z_refused : zClear 0x81 = false ∧ legalDatum 0x81 = false ∧ legalDatum 0xFF = false := by decide
theorem test_reserved_op_refused :
    legalDatum 0x00 = false ∧ legalDatum 0x05 = false ∧ legalDatum 0x0F = false := by decide
theorem test_strategy_without_addmod_refused :
    plainOperation 0x13 = false ∧ legalDatum 0x11 = false ∧ legalDatum 0x12 = false ∧ legalDatum 0x13 = false ∧
      legalDatum 0x73 = false := by decide
theorem test_strategy_seven_refused : addmodOperation 0x74 = false ∧ legalDatum 0x74 = false := by decide
theorem test_strategy_six_accepted : addmodOperation 0x64 = true ∧ legalDatum 0x64 = true := by decide

/-! ### Decoding, from the bits of each word: `Z`, three bits of `STRAT`, four bits of `OP` (R71, R73, R74) -/

theorem test_decode_addc : decode 0b0_000_0001 = .ok .addc := by rfl
theorem test_decode_subc : decode 0b0_000_0010 = .ok .subc := by rfl
theorem test_decode_divrem : decode 0b0_000_0011 = .ok .divrem := by rfl
theorem test_decode_addmod : decode 0b0_000_0100 = .ok .addmod := by rfl
theorem test_decode_addmod_div : decode 0b0_001_0100 = .ok .addmodDiv := by rfl
theorem test_decode_addmod_cfp : decode 0b0_010_0100 = .ok .addmodCfp := by rfl
theorem test_decode_addmod_ufp : decode 0b0_011_0100 = .ok .addmodUfp := by rfl
theorem test_decode_addmod_pre : decode 0b0_100_0100 = .ok .addmodPre := by rfl
theorem test_decode_addmod_preb : decode 0b0_101_0100 = .ok .addmodPreb := by rfl
theorem test_decode_addmod_thr : decode 0b0_110_0100 = .ok .addmodThr := by rfl

theorem test_decode_names_upper_bits : decode 0x0000000000000101 = .error .upperBits := by rfl
theorem test_decode_names_z : decode 0b1_000_0100 = .error .zBit := by rfl
theorem test_decode_names_op : decode 0b0_000_0000 = .error .reservedOp := by rfl
theorem test_decode_names_strategy : decode 0b0_001_0011 = .error .strategyWithoutAddmod := by rfl
theorem test_decode_names_strategy_seven : decode 0b0_111_0100 = .error .reservedStrategy := by rfl

theorem test_encode_round_trip_thr : decode (encode .addmodThr) = .ok .addmodThr := by rfl
theorem test_table_word : decodeTableWord 8 0x64 = some .addmodThr ∧ decodeTableWord 8 0x74 = none := by decide
theorem test_placed_word_is_the_next_write :
    (State.reset.withFetchWord 8 0x14).pending = [.wrl 0x18 0x14] := by rfl

/-! ### Commands, from the vectors -/

/-- AD2 -/
theorem test_addc_carry_out :
    results (exec .addc (start 0xffffffffffffffffffffffffffffffffffffffffffffffffffffffffffffffff 0x1 0x0 0x0)) =
      some (0x0, 0x0, 0x003) := by rfl

/-- AD11 -/
theorem test_addc_between_limbs :
    results (exec .addc (start 0xffffffffffffffff0000000000000000ffffffffffffffff0000000000000000 0x0000000000000001000000000000000000000000000000010000000000000000 0x0 0x0)) =
      some (0x0000000000000000000000000000000100000000000000000000000000000000, 0x0, 0x003) := by rfl

/-- SB5 -/
theorem test_subc_order :
    results (exec .subc (start 0x5 0x7 0x0 0x0)) =
      some (0xfffffffffffffffffffffffffffffffffffffffffffffffffffffffffffffffe, 0x0, 0x003) := by rfl

/-- SB6 -/
theorem test_subc_borrow_across_limbs :
    results (exec .subc (start 0x0000000000000001000000000000000000000000000000000000000000000000 0x1 0x0 0x0)) =
      some (0x0000000000000000ffffffffffffffffffffffffffffffffffffffffffffffff, 0x0, 0x001) := by rfl

/-- DV4 -/
theorem test_divrem_top_quotient_limb :
    results (exec .divrem (start 0x0 0x0 0x1 0x1)) =
      some (0x0, 0x00000000000000010000000000000000000000000000000000000000000000000000000000000000, 0x001) := by rfl

/-- DV13 -/
theorem test_divrem_add_back_operands :
    results (exec .divrem (start 0x8000000000000000ffffffffffffffff0000000000000000ffffffffffffffff 0x0 0x000000000000000080000000000000000000000000000000ffffffffffffffff 0xffffffffffffffff)) =
      some (0x000000000000000000000000000000020000000000000001fffffffffffffffd, 0x0000000000000001fffffffffffffffefffffffffffffffe, 0x001) := by rfl

/-- AM19 -/
theorem test_addmod_div_carry :
    results (exec .addmodDiv (start 0x8000000000000000000000000000000000000000000000000000000000000000 0x8000000000000000000000000000000000000000000000000000000000000000 0xffffffffffffffffffffffffffffffffffffffffffffffffffffffffffffffff 0x0)) =
      some (0x1, 0x0, 0x101) := by rfl

/-- AM2 -/
theorem test_addmod_div_reduced :
    results (exec .addmodDiv (start 0x6 0x6 0x7 0x0)) =
      some (0x5, 0x0, 0x101) := by rfl

/-- AM8 -/
theorem test_addmod_cfp_256_bit_division :
    results (exec .addmodCfp (start 0xa 0x3 0x4 0x0)) =
      some (0x1, 0x0, 0x201) := by rfl

/-- AM19 -/
theorem test_addmod_cfp_carry :
    results (exec .addmodCfp (start 0x8000000000000000000000000000000000000000000000000000000000000000 0x8000000000000000000000000000000000000000000000000000000000000000 0xffffffffffffffffffffffffffffffffffffffffffffffffffffffffffffffff 0x0)) =
      some (0x1, 0x0, 0x401) := by rfl

/-- AM8 -/
theorem test_addmod_ufp_unreduced :
    results (exec .addmodUfp (start 0xa 0x3 0x4 0x0)) =
      some (0x1, 0x0, 0x101) := by rfl

/-- AM5 -/
theorem test_addmod_ufp_carry :
    results (exec .addmodUfp (start 0x8000000000000001000000000000000000000000000000000123456789abcdee 0x8000000000000001000000000000000000000000000000000123456789abcdee 0x8000000000000001000000000000000000000000000000000123456789abcdef 0x0)) =
      some (0x8000000000000001000000000000000000000000000000000123456789abcded, 0x0, 0x401) := by rfl

/-- AM9 -/
theorem test_addmod_pre_unreduced :
    results (exec .addmodPre (start 0x8000000000000000000000000000000000000000000000000000000000000005 0x3 0x8000000000000000000000000000000000000000000000000000000000000000 0x0)) =
      some (0x8, 0x0, 0x301) := by rfl

/-- AM19 -/
theorem test_addmod_pre_carry :
    results (exec .addmodPre (start 0x8000000000000000000000000000000000000000000000000000000000000000 0x8000000000000000000000000000000000000000000000000000000000000000 0xffffffffffffffffffffffffffffffffffffffffffffffffffffffffffffffff 0x0)) =
      some (0x1, 0x0, 0x401) := by rfl

/-- AM9 -/
theorem test_addmod_preb_unreduced :
    results (exec .addmodPreb (start 0x8000000000000000000000000000000000000000000000000000000000000005 0x3 0x8000000000000000000000000000000000000000000000000000000000000000 0x0)) =
      some (0x8, 0x0, 0x301) := by rfl

/-- AM5 -/
theorem test_addmod_preb_carry :
    results (exec .addmodPreb (start 0x8000000000000001000000000000000000000000000000000123456789abcdee 0x8000000000000001000000000000000000000000000000000123456789abcdee 0x8000000000000001000000000000000000000000000000000123456789abcdef 0x0)) =
      some (0x8000000000000001000000000000000000000000000000000123456789abcded, 0x0, 0x401) := by rfl

/-- AM3 -/
theorem test_addmod_thr_adjusts :
    results (exec .addmodThr (start 0xffffffffffffffffffffffffffffffffffffffffffffffffffffffffffffffff 0xffffffffffffffffffffffffffffffffffffffffffffffffffffffffffffffff 0xffffffffffffffffffffffffffffffffffffffffffffffffffffffffffffffff 0x0)) =
      some (0x0, 0x0, 0x301) := by rfl

/-- AM17 -/
theorem test_addmod_thr_falls_back :
    results (exec .addmodThr (start 0x8000000000000001000000000000000000000000000000000000000000000000 0x0 0x8000000000000000000000000000000000000000000000000000000000000001 0x0)) =
      some (0x0000000000000000ffffffffffffffffffffffffffffffffffffffffffffffff, 0x0, 0x101) := by rfl

/-- AM19 and R139: the public operation gives the sum whichever strategy it runs. -/
theorem test_addmod_public_every_strategy : ∀ st : Strategy,
    (addMod st 0x8000000000000000000000000000000000000000000000000000000000000000 0x8000000000000000000000000000000000000000000000000000000000000000 0xffffffffffffffffffffffffffffffffffffffffffffffffffffffffffffffff (by decide)).1 = 0x1 := by
  intro st; cases st <;> rfl

/-- FL3: a zero modulus, whatever the public strategy. -/
theorem test_addmod_public_zero_modulus :
    faultView (exec .addmod (start 0 0 0 0)) = some (false, true, 1, 0, 0, 0, 0) := by rfl

/-! ### The reference algorithm: its traces -/

/-- DV13 -/
theorem test_trace_add_back :
    (divSteps 0xffffffffffffffff8000000000000000ffffffffffffffff0000000000000000ffffffffffffffff 0x80000000000000000000000000000000ffffffffffffffff).map (fun st => (st.firstEstimate, st.decrements, st.addBack, st.digit)) =
      [(0x1, 0, false, 0x1), (0xffffffffffffffff, 0, true, 0xfffffffffffffffe), (0xfffffffffffffffe, 0, false, 0xfffffffffffffffe)] := by rfl

/-- DV14 -/
theorem test_trace_two_decrements :
    (divSteps 0x80000000000000008000000000000000d1ca4dc4edfde416ffffffffffffffffffffffffffffffff 0x4000000000000000ffffffffffffffff0000000000000000).map (fun st => (st.firstEstimate, st.decrements, st.addBack, st.digit)) =
      [(0x1, 0, false, 0x1), (0xfffffffffffffffc, 2, false, 0xfffffffffffffffa), (0x23, 0, false, 0x23)] := by rfl

/-- DV9 -/
theorem test_trace_one_limb_divisor :
    (divSteps 0x0123456789abcdeffedcba9876543210fedcba9876543210fedcba9876543210fedcba9876543210 0xffffffffffffffff).map (fun st => (st.firstEstimate, st.decrements, st.addBack, st.digit)) =
      [(0x0, 0, false, 0x0), (0x123456789abcdf0, 0, false, 0x123456789abcdf0), (0x0, 0, false, 0x0), (0xfedcba9876543211, 0, false, 0xfedcba9876543211), (0xfdb97530eca86422, 0, false, 0xfdb97530eca86422)] := by rfl

/-! ### Faults -/

/-- FL1: a zero modulus. -/
theorem test_fault_divrem : faultView (command 0x03 (start 5 0 0 0)) = some (false, true, 1, 5, 0, 0, 0) := by rfl
/-- FL4. -/
theorem test_fault_addmod_thr : faultView (command 0x64 (start 0 0 0 0)) = some (false, true, 1, 0, 0, 0, 0) := by rfl
/-- FL5: `ADDC` does not read `M`. -/
theorem test_no_fault_addc : results (command 0x01 (start 0 0 0 0)) = some (0, 0, 0x001) := by rfl
/-- FL11: a bit above the word, although the low byte is `ADDC`. -/
theorem test_fault_upper_bits :
    faultView (command 0x8000000000000001 (start 0 0 7 0)) = some (false, true, 2, 0, 0, 0, 7) := by rfl
/-- FL12: decode is checked before the modulus. -/
theorem test_fault_decode_first : faultView (command 0x13 (start 0 0 0 0)) = some (false, true, 2, 0, 0, 0, 0) := by rfl

/-- A core in the fault state, with operands that are not zero. -/
def faulted : State := { start 5 6 0 1 with err := true, cause := 1 }

/-- Section 2.5: after a fault a write is ignored and the old limb still read, and a further illegal command does not change
`CAUSE`. -/
theorem test_fault_state_ignores :
    readsOf (runScript faulted [.wrl 0x10 7, .rdl 0x10, .rdl 0x00]) = some [5, 0] ∧
    faultView (runScript faulted [.wrl 0x18 0x01, .wrl 0x18 0x74]) = some (false, true, 1, 5, 1, 6, 0) := by
  exact ⟨rfl, rfl⟩

/-- RS6. -/
theorem test_reset_leaves_fault_state :
    readsOf (runScript faulted [.reset, .rdl 0x19, .rdl 0x00]) = some [0, 0] := by rfl

/-! ### The port -/

/-- The start of section 2.6: `X` = 0x11, `Y` = 0x22, then `ADDC`. -/
def afterAddc : State := { start 0x11 0x22 0 0 with r := 0x33, valid := true }

theorem test_port_start : exec .addc (start 0x11 0x22 0 0) = .next afterAddc := by rfl
/-- PT1, PT2, PT3. -/
theorem test_port_reserved :
    readsOf (runScript afterAddc [.rdl 0x05, .wrl 0x05 0xFFFFFFFFFFFFFFFF, .rdl 0x05, .rdl 0x3F, .rdl 0x19]) =
      some [0x001, 0, 0, 0] := by rfl
/-- PT4. -/
theorem test_port_command_reads_zero : readsOf (runScript afterAddc [.rdl 0x18]) = some [0] := by rfl
/-- PT5, PT6. -/
theorem test_port_results_read_only :
    readsOf (runScript afterAddc [.wrl 0x20 0x99, .rdl 0x20, .wrl 0x2C 1, .rdl 0x2C]) = some [0, 0x33] := by rfl
/-- PT7, PT8. -/
theorem test_port_status_read_only :
    readsOf (runScript afterAddc [.wrl 0x19 0, .rdl 0x19, .wrl 0x19 4, .rdl 0x19]) = some [0x001, 0x001] := by rfl
/-- PT10. -/
theorem test_port_one_limb :
    readsOf (runScript afterAddc [.wrl 0x01 1, .rdl 0x00, .rdl 0x01, .rdl 0x20]) = some [0x33, 1, 0x11] := by rfl

/-- R51: the address map at both ends of every range. -/
theorem test_map_boundaries :
    locate 0x00 = .x 0 ∧ locate 0x03 = .x 3 ∧ locate 0x04 = .e ∧ locate 0x05 = .reserved ∧ locate 0x07 = .reserved ∧
    locate 0x08 = .y 0 ∧ locate 0x0B = .y 3 ∧ locate 0x0C = .reserved ∧ locate 0x0F = .reserved ∧
    locate 0x10 = .m 0 ∧ locate 0x13 = .m 3 ∧ locate 0x14 = .reserved ∧ locate 0x17 = .reserved ∧
    locate 0x18 = .cmd ∧ locate 0x19 = .status ∧ locate 0x1A = .reserved ∧ locate 0x1F = .reserved ∧
    locate 0x20 = .r 0 ∧ locate 0x23 = .r 3 ∧ locate 0x24 = .reserved ∧ locate 0x27 = .reserved ∧
    locate 0x28 = .q 0 ∧ locate 0x2C = .q 4 ∧ locate 0x2D = .reserved ∧ locate 0x3F = .reserved := by decide

/-! ### Reset and the first command -/

/-- RS2, RS4: straight after reset, placed as the host's next write. -/
theorem test_first_command :
    results (step (State.reset.withFetchWord 8 0x01)) = some (0, 0, 0x001) ∧
    faultView (step (State.reset.withFetchWord 8 0x03)) = some (false, true, 1, 0, 0, 0, 0) := by exact ⟨rfl, rfl⟩

/-- R63: instance 1 steps and instance 0 stays. -/
theorem test_instances :
    systemStep 1 (System.start 2) = .next (System.start 2) ∧
    systemStep 2 (System.start 2) = .refused .noSuchInstance := by exact ⟨rfl, rfl⟩

/-! ### Witnesses: the hypotheses of the statements, met together by concrete states and operands -/

/-- An accepting core with a modulus that is not zero and one-limb operands. -/
def accepting : State := start 5 6 7 1

/-- A core with the host's next actions given. -/
def withActions (s : State) (actions : List HostAction) : State := { s with pending := actions }

/-- The hypotheses of the statements about a command that completes: AddcWritesSumAndCarry, SubcWritesDifferenceAndBorrow,
DivremWritesQuotientAndRemainder, AddmodWritesModularSum and the six path statements; and of their zero-modulus clauses. -/
theorem test_witness_accepting :
    accepting.err = false ∧ accepting.m ≠ 0 ∧ (start 5 6 0 1).err = false ∧ (start 5 6 0 1).m = 0 := by decide

theorem test_witness_ResetActionClearsEveryRegister :
    faulted.err = true ∧ (withActions faulted [.reset, .rdl 0x19]).pending = .reset :: [.rdl 0x19] := by decide

/-- One command that completes and one that faults. -/
theorem test_witness_AbandonedCommandLeavesNoTrace :
    (∃ t, command 0x03 accepting = .next t) ∧ (∃ t, command 0x03 (start 5 6 0 1) = .next t) :=
  ⟨⟨_, rfl⟩, ⟨_, rfl⟩⟩

theorem test_witness_CommandsStraightAfterReset :
    readsModulus .divrem = true ∧ readsModulus .addmod = true ∧ readsModulus .addc = false ∧ readsModulus .subc = false := by
  decide

theorem test_witness_AddcWritesSumAndCarry :
    (start 5 6 0 0).err = false ∧ (start 0x0 0x0 0x0 0xFFFFFFFFFFFFFFFF).err = false := by decide

theorem test_witness_SubcWritesDifferenceAndBorrow : (start 5 6 0 0).err = false := by decide

/-- The divisor's least and largest value. -/
theorem test_witness_DivRemMeetsContract :
    (1 : Word) ≠ 0 ∧ (0xffffffffffffffffffffffffffffffffffffffffffffffffffffffffffffffff : Word) ≠ 0 := by decide

/-- 23 = 3 * 7 + 2, and the largest dividend by 1. -/
theorem test_witness_DivRemIsUnique :
    ((7 : Word) ≠ 0 ∧ (23 : Wide).toNat = 3 * (7 : Word).toNat + 2 ∧ 2 < (7 : Word).toNat) ∧
    ((1 : Word) ≠ 0 ∧ (BitVec.allOnes 320).toNat = (2 ^ 320 - 1) * (1 : Word).toNat + 0 ∧ 0 < (1 : Word).toNat) := by
  refine ⟨by decide, by decide, ?_, by decide⟩
  rw [BitVec.toNat_allOnes]
  show 2 ^ 320 - 1 = (2 ^ 320 - 1) * 1 + 0
  omega

theorem test_witness_DivremWritesQuotientAndRemainder :
    (accepting.err = false ∧ accepting.m ≠ 0) ∧ ((start 5 6 0 1).err = false ∧ (start 5 6 0 1).m = 0) := by decide

/-- Both clauses at their boundary: `E` one below `M`, `E` = 1 with `M` = 1, and `E` = 0. -/
theorem test_witness_QuotientWidthBounds :
    ((start 5 6 2 1).m ≠ 0 ∧ (start 5 6 2 1).e.toNat < (start 5 6 2 1).m.toNat ∧ (start 5 6 2 1).e.toNat ≤ 1) ∧
    ((start 5 6 1 1).m ≠ 0 ∧ (start 5 6 1 1).e.toNat ≤ 1) ∧ (start 5 6 1 0).e.toNat < (start 5 6 1 0).m.toNat := by decide

theorem test_witness_ReductionIsIdempotent :
    (7 : Word) ≠ 0 ∧ (6 : Word).toNat < (7 : Word).toNat ∧ (0 : Word).toNat < (1 : Word).toNat := by decide

/-- The exponents 0 and 255, a dividend one divisor above another, and a divisor that is not zero. -/
theorem test_witness_DivisionLaws :
    (7 : Word) ≠ 0 ∧ BitVec.ofNat 256 (2 ^ 0) ≠ 0 ∧ (0 ≤ 255) ∧ BitVec.ofNat 256 (2 ^ 255) ≠ 0 ∧ (255 ≤ 255) ∧
    (30 : Wide).toNat = (23 : Wide).toNat + (7 : Word).toNat := by decide

theorem test_witness_DivisionAlgorithmMeetsContract : (0x8000000000000000 : Word) ≠ 0 ∧ (1 : Word) ≠ 0 := by decide

/-- A step of a division exists. -/
theorem test_witness_EstimateCorrectionBound :
    (3 : Word) ≠ 0 ∧ ∃ st, st ∈ divSteps (7 : Wide).toNat (3 : Word).toNat :=
  ⟨by decide, _, List.mem_cons_self⟩

theorem test_witness_AddmodWritesModularSum :
    Instr.addmod ∈ [Instr.addmod, .addmodDiv, .addmodCfp, .addmodUfp, .addmodPre, .addmodPreb, .addmodThr] ∧
    Instr.addmodThr ∈ [Instr.addmod, .addmodDiv, .addmodCfp, .addmodUfp, .addmodPre, .addmodPreb, .addmodThr] ∧
    strategyOf .addmodThr = some .thr ∧
    (accepting.err = false ∧ accepting.m ≠ 0) ∧ ((start 5 6 0 1).err = false ∧ (start 5 6 0 1).m = 0) := by decide

theorem test_witness_StrategiesAgree : (7 : Word) ≠ 0 := by decide

theorem test_witness_DivisionOnlyPath : accepting.err = false ∧ accepting.m ≠ 0 := by decide

/-- One state for each of the four branches. -/
theorem test_witness_CarryFastPath :
    (∀ s ∈ [start 2 3 7 0, start 3 4 7 0, start 0xa 3 4 0,
        start 0xffffffffffffffffffffffffffffffffffffffffffffffffffffffffffffffff 1 4 0],
      s.err = false ∧ s.m ≠ 0) ∧
    (start 2 3 7 0).x.toNat + (start 2 3 7 0).y.toNat < (start 2 3 7 0).m.toNat ∧
    ¬ (start 3 4 7 0).x.toNat + (start 3 4 7 0).y.toNat < (start 3 4 7 0).m.toNat ∧
    ¬ (start 0xa 3 4 0).x.toNat < (start 0xa 3 4 0).m.toNat := by decide

theorem test_witness_UnifiedFastPath : accepting.err = false ∧ accepting.m ≠ 0 := by decide
theorem test_witness_PreReductionPath : accepting.err = false ∧ accepting.m ≠ 0 := by decide
theorem test_witness_BorrowTestMatchesPreReduction : accepting.err = false ∧ accepting.m ≠ 0 := by decide

/-- A state in which the condition holds at its least modulus, and one in which it does not. -/
theorem test_witness_ThresholdPath :
    ((start 0 0 0x1000000000000000000000000000000000000000000000000 0).err = false ∧
      (start 0 0 0x1000000000000000000000000000000000000000000000000 0).m ≠ 0 ∧
      thresholdHolds 0 0 0x1000000000000000000000000000000000000000000000000 = true) ∧
    accepting.err = false ∧ accepting.m ≠ 0 ∧ thresholdHolds accepting.x accepting.y accepting.m = false := by
  exact ⟨⟨rfl, by decide, by decide⟩, by decide⟩

/-- The least modulus, and operands whose top limbs equal the modulus's. -/
theorem test_witness_ThresholdConditionBoundsOperands :
    thresholdHolds 0 0 0x1000000000000000000000000000000000000000000000000 = true ∧
    thresholdHolds 0xf000000000000000ffffffffffffffffffffffffffffffffffffffffffffffff 5
      0xf000000000000000000000000000000000000000000000000000000000000001 = true := by decide

theorem test_witness_ZeroModulusRaisesDivByZero :
    (readsModulus .addmodCfp = true ∧ (start 5 6 0 1).err = false ∧ (start 5 6 0 1).m = 0) ∧
    (readsModulus .subc = false ∧ (start 5 6 0 1).err = false) := by decide

theorem test_witness_IllegalDatumRaisesIllegalCmd :
    (withActions accepting [.wrl 0x18 0x74]).pending = .wrl 0x18 0x74 :: [] ∧
    (withActions accepting [.wrl 0x18 0x74]).err = false ∧ legalDatum 0x74 = false := by decide

theorem test_witness_DecodeIsCheckedBeforeModulus :
    ((start 5 6 0 1).err = false ∧ legalDatum 0x13 = false) ∧
    (decode 0x03 = .ok .divrem ∧ readsModulus .divrem = true ∧ (start 5 6 0 1).m = 0) :=
  ⟨by decide, rfl, rfl, rfl⟩

/-- The fault state with a write pending, and with a read pending at both ends of every range the statement names. -/
theorem test_witness_FaultStateIgnoresWritesAndAnswersReads :
    faulted.err = true ∧ (faulted.err = true → (faulted.cause = 1 ∨ faulted.cause = 2) ∧ faulted.valid = false) ∧
    (withActions faulted [.wrl 0x10 7]).pending = .wrl 0x10 7 :: [] ∧
    (withActions faulted [.rdl 0x03]).pending = .rdl 0x03 :: [] ∧ (0x03 : PortAddr).toNat = 3 ∧
    (0x04 : PortAddr) = 0x04 ∧ (0x08 : PortAddr).toNat = 0x08 + 0 ∧ (0x0B : PortAddr).toNat = 0x08 + 3 ∧
    (0x10 : PortAddr).toNat = 0x10 + 0 ∧ (0x13 : PortAddr).toNat = 0x10 + 3 := by decide

theorem test_witness_faulted_is_legal : statusLegal faulted := by unfold statusLegal; decide

/-- The three clauses: the fault state without a reset, the first fault, and a reset. -/
theorem test_witness_FaultIsStickyUntilReset :
    (step (withActions faulted [.wrl 0x18 0x01]) = .next faulted ∧ faulted.err = true) ∧
    ((∃ t, step (withActions accepting [.wrl 0x18 0x74]) = .next t) ∧ accepting.err = false ∧ accepting.cause = 0) ∧
    (∃ t, step (withActions faulted [.reset]) = .next t) :=
  ⟨⟨rfl, rfl⟩, ⟨⟨_, rfl⟩, rfl, rfl⟩, ⟨_, rfl⟩⟩

theorem test_witness_EveryStepAnswers : ∀ rest, (withActions faulted [.rdl 0x20]).pending ≠ .secondHost :: rest := by
  intro rest h; cases h

theorem test_witness_SecondHostIsRefused :
    (withActions accepting [.secondHost, .reset]).pending = .secondHost :: [.reset] := by decide

/-- Steps by writes at the addresses just outside each register's range, none of them a reset: 0x04 for `X`, 0x05 for `E`,
0x07 and 0x0C for `Y`, 0x0F and 0x14 for `M`. -/
theorem test_witness_OperandsChangeOnlyByHostOrReset :
    (∀ a ∈ ([0x04, 0x05, 0x07, 0x0C, 0x0F, 0x14] : List PortAddr),
      (∃ t, step (withActions accepting [.wrl a 9]) = .next t) ∧
      ∀ rest, (withActions accepting [.wrl a 9]).pending ≠ .reset :: rest) ∧
    (∀ addr v rest, (withActions accepting [.wrl 0x04 9]).pending = .wrl addr v :: rest → 0x04 ≤ addr.toNat) ∧
    (∀ addr v rest, (withActions accepting [.wrl 0x05 9]).pending = .wrl addr v :: rest → addr ≠ 0x04) ∧
    (∀ addr v rest, (withActions accepting [.wrl 0x07 9]).pending = .wrl addr v :: rest →
      addr.toNat < 0x08 ∨ 0x0B < addr.toNat) ∧
    (∀ addr v rest, (withActions accepting [.wrl 0x14 9]).pending = .wrl addr v :: rest →
      addr.toNat < 0x10 ∨ 0x13 < addr.toNat) := by
  refine ⟨?_, ?_, ?_, ?_, ?_⟩
  · intro a ha
    simp only [List.mem_cons, List.not_mem_nil, or_false] at ha
    rcases ha with rfl | rfl | rfl | rfl | rfl | rfl <;> exact ⟨⟨_, rfl⟩, fun rest h => (by cases h)⟩
  all_goals
    intro addr v rest h
    cases h
    decide

/-- Two states that differ in `E` and `R`, which `ADDMOD.UFP` does not read. -/
theorem test_witness_ResultsDependOnOperandsOnly :
    ready .addmodUfp accepting ∧ ({ start 5 6 7 2 with r := 9, valid := true } : State).err = false ∧
    readsAgree .addmodUfp accepting { start 5 6 7 2 with r := 9, valid := true } :=
  ⟨⟨rfl, fun _ => by decide⟩, rfl, rfl, rfl, rfl⟩

theorem test_witness_StepKeepsCoreInvariant :
    coreInvariant (withActions afterAddc [.wrl 0x18 0x02]) ∧
    ∃ t, step (withActions afterAddc [.wrl 0x18 0x02]) = .next t := by
  refine ⟨?_, _, rfl⟩
  unfold coreInvariant statusLegal noResultIsZero resultShape
  decide

/-- A host about to present a legal `DIVREM` with a modulus that is not zero. -/
theorem test_witness_ObedientHostNeverFaults :
    accepting.err = false ∧
    (∀ a rest, (withActions accepting [.wrl 0x18 0x03]).pending = a :: rest →
      hostObeys { withActions accepting [.wrl 0x18 0x03] with pending := rest } a) ∧
    ∃ t, step (withActions accepting [.wrl 0x18 0x03]) = .next t := by
  refine ⟨rfl, ?_, _, rfl⟩
  intro a rest h
  cases h
  exact fun _ => ⟨.divrem, rfl, fun _ => by decide⟩

theorem test_witness_DecodeAcceptsExactlyLegalData : legalDatum 0x00 = false ∧ accepting.err = false := by decide

theorem test_witness_DecodeAndEncodeAgree : decode 0x54 = .ok .addmodPreb := by rfl

theorem test_witness_StepRunsTheDecodedCommand :
    (withActions accepting [.wrl 0x18 0x34, .rdl 0x19]).pending = .wrl 0x18 0x34 :: [.rdl 0x19] ∧
    decode 0x34 = .ok .addmodUfp := ⟨rfl, rfl⟩

theorem test_witness_IdleCoreHoldsItsState : afterAddc.pending = [] := by rfl

/-- Every range of the address map at both ends; no two of them share an address, so each read has one clause. -/
theorem test_witness_ReadsFollowTheAddressMap :
    (withActions accepting [.rdl 0x03]).pending = .rdl 0x03 :: [] ∧ accepting.err = false ∧
    (0x00 : PortAddr).toNat = 0 ∧ (0x03 : PortAddr).toNat = 3 ∧ (0x04 : PortAddr).toNat = 0x04 ∧
    (0x08 : PortAddr).toNat = 0x08 + 0 ∧ (0x0B : PortAddr).toNat = 0x08 + 3 ∧
    (0x10 : PortAddr).toNat = 0x10 + 0 ∧ (0x13 : PortAddr).toNat = 0x10 + 3 ∧ (0x18 : PortAddr).toNat = 0x18 ∧
    (0x20 : PortAddr).toNat = 0x20 + 0 ∧ (0x23 : PortAddr).toNat = 0x20 + 3 ∧
    (0x28 : PortAddr).toNat = 0x28 + 0 ∧ (0x2C : PortAddr).toNat = 0x28 + 4 ∧ 0x2D ≤ (0x2D : PortAddr).toNat := by decide

theorem test_witness_StatusReadShowsEveryField :
    ((withActions afterAddc [.rdl 0x19]).pending = .rdl 0x19 :: [] ∧ afterAddc.err = false) ∧
    (withActions faulted [.rdl 0x19]).pending = .rdl 0x19 :: [] ∧
    (withActions faulted [.wrl 0x19 4]).pending = .wrl 0x19 4 :: [] := by decide

theorem test_witness_WritesChangeOneLimb :
    (withActions accepting [.wrl 0x13 9]).pending = .wrl 0x13 9 :: [] ∧ accepting.err = false ∧
    (0x00 : PortAddr).toNat = 0 ∧ (0x03 : PortAddr).toNat = 3 ∧ (0x04 : PortAddr).toNat = 0x04 ∧
    (0x08 : PortAddr).toNat = 0x08 + 0 ∧ (0x0B : PortAddr).toNat = 0x08 + 3 ∧
    (0x10 : PortAddr).toNat = 0x10 + 0 ∧ (0x13 : PortAddr).toNat = 0x10 + 3 := by decide

/-- The address premise at both ends of the reserved ranges, with a read and a write pending. -/
theorem test_witness_ReservedLocationsAreInert :
    (∀ a ∈ ([0x05, 0x07, 0x0C, 0x0F, 0x14, 0x17, 0x1A, 0x1F, 0x24, 0x27, 0x2D, 0x3F] : List PortAddr),
      (0x05 ≤ a.toNat ∧ a.toNat ≤ 0x07) ∨ (0x0C ≤ a.toNat ∧ a.toNat ≤ 0x0F) ∨ (0x14 ≤ a.toNat ∧ a.toNat ≤ 0x17) ∨
      (0x1A ≤ a.toNat ∧ a.toNat ≤ 0x1F) ∨ (0x24 ≤ a.toNat ∧ a.toNat ≤ 0x27) ∨ 0x2D ≤ a.toNat) ∧
    (withActions accepting [.rdl 0x3F]).pending = .rdl 0x3F :: [] ∧
    (withActions faulted [.wrl 0x05 1]).pending = .wrl 0x05 1 :: [] := by decide

theorem test_witness_ReadOnlyAndWriteOnlyLocations :
    (∀ a ∈ ([0x20, 0x23, 0x28, 0x2C, 0x19] : List PortAddr),
      (0x20 ≤ a.toNat ∧ a.toNat ≤ 0x23) ∨ (0x28 ≤ a.toNat ∧ a.toNat ≤ 0x2C) ∨ a.toNat = 0x19) ∧
    (withActions accepting [.wrl 0x2C 1]).pending = .wrl 0x2C 1 :: [] ∧
    (0x18 : PortAddr).toNat = 0x18 ∧ (withActions accepting [.rdl 0x18]).pending = .rdl 0x18 :: [] := by decide

theorem test_witness_ReadsAreIdempotent :
    (withActions afterAddc [.rdl 0x19, .rdl 0x19]).pending = .rdl 0x19 :: .rdl 0x19 :: [] ∧ afterAddc.err = false := by
  decide

theorem test_witness_SetWritesTheWholeRegister :
    accepting.err = false ∧ (withActions accepting (setScript .x 9 ++ [.reset])).pending = setScript .x 9 ++ [.reset] ∧
    (withActions accepting (setScript .y 9 ++ [])).pending = setScript .y 9 ++ [] ∧
    (withActions accepting (setScript .m 9 ++ [])).pending = setScript .m 9 ++ [] := by decide

theorem test_witness_SetDividendMakesTheDividend :
    accepting.err = false ∧ (withActions accepting (setDividendScript 9 ++ [])).pending = setDividendScript 9 ++ [] :=
  ⟨rfl, rfl⟩

theorem test_witness_GetYieldsTheResult :
    afterAddc.err = false ∧ (withActions afterAddc (getResultScript ++ [])).pending = getResultScript ++ [] ∧
    (withActions afterAddc (getQuotientScript ++ [.reset])).pending = getQuotientScript ++ [.reset] := ⟨rfl, rfl, rfl⟩

theorem test_witness_InstanceStepLeavesTheOthers : ∃ sys, systemStep 0 (System.start 2) = .next sys := ⟨_, rfl⟩

/-- Two instances, stepped in turn. -/
theorem test_witness_InterleavingEqualsRunningAlone :
    (∃ sys, systemRun [0, 1, 0] (System.start 2) = .next sys) ∧
    (System.start 2).instances[1]? = some { State.reset with stream := 1 } := ⟨⟨_, rfl⟩, rfl⟩

end Sys2Proof.Tests
end

section
/-!
SUPPORT and PROOFS of the statements of 10_state.md. The decoder accepts exactly the legal data (R76); what presenting a
datum to `CMD` can do (R14, R174); what one host action can do to `ERR` and `CAUSE` (R29).
-/

namespace Sys2Proof.Machine

/-- Which pairs of fields are a command (R71, R73, R74). -/
theorem decodeFields_toBool : ∀ (op : BitVec 4) (strat : BitVec 3),
    (decodeFields op strat).toBool =
      ((op == 1 || op == 2 || op == 3) && strat == 0 || op == 4 && decide (strat ≤ 6)) := by decide

/-- The decoder accepts a datum exactly when R76 calls it legal. -/
theorem decode_toBool (v : Limb) : (decode v).toBool = legalDatum v := by
  unfold decode legalDatum
  split
  · have hupper : upperClear v = false := beq_eq_false_iff_ne.mpr ‹_›
    simp [hupper, Except.toBool]
  · have hupper : upperClear v = true := beq_iff_eq.mpr (not_not.mp ‹_›)
    split
    · have hz : zClear v = false := beq_eq_false_iff_ne.mpr ‹_›
      simp [hz, Except.toBool]
    · have hz : zClear v = true := beq_iff_eq.mpr (not_not.mp ‹_›)
      simp only [hupper, hz, Bool.true_and]
      exact decodeFields_toBool (opField v) (stratField v)

theorem legalDatum_of_decode_error {v : Limb} {e : Illegal} (h : decode v = .error e) : legalDatum v = false := by
  rw [← decode_toBool, h]; rfl

/-- Presenting `v` to `CMD` in `s` faults, and `t` is the state after it: DivByZero for a command that divides by a zero
`M` (R171), or IllegalCmd for an illegal datum (R172). -/
def faultsTo (v : Limb) (s t : State) : Prop :=
  (t = raise causeDivByZero s ∧ s.m = 0 ∧ ∃ i, decode v = .ok i ∧ readsModulus i = true) ∨
  (t = raise causeIllegalCmd s ∧ legalDatum v = false)

theorem err_of_faultsTo {v : Limb} {s t : State} (h : faultsTo v s t) : t.err = true := by
  obtain ⟨rfl, _⟩ | ⟨rfl, _⟩ := h
  · exact raise_err ..
  · exact raise_err ..

theorem cause_of_faultsTo {v : Limb} {s t : State} (h : faultsTo v s t) :
    (t.cause = 1 ∧ s.m = 0 ∧ ∃ i, decode v = .ok i ∧ readsModulus i = true) ∨
      (t.cause = 2 ∧ legalDatum v = false) := by
  obtain ⟨rfl, hm, hread⟩ | ⟨rfl, hillegal⟩ := h
  · exact .inl ⟨raise_cause .., hm, hread⟩
  · exact .inr ⟨raise_cause .., hillegal⟩

/-- A datum presented to `CMD` is ignored in the fault state (R176), faults (R174), or is a command that completes
(R14). -/
theorem command_cases {v : Limb} {s t : State} (h : command v s = .next t) :
    (s.err = true ∧ t = s) ∨ (s.err = false ∧ faultsTo v s t) ∨
      ∃ i res, decode v = .ok i ∧ ready i s ∧ resultLegal res ∧ t = commit res s := by
  cases hd : decode v with
  | ok i =>
    rw [command_legal hd] at h
    obtain ⟨herr, hex⟩ | ⟨herr, hread, hm, hex⟩ | ⟨hready, res, hres, hex⟩ := exec_cases i s
    all_goals rw [hex] at h; injection h with h
    · exact .inl ⟨herr, h.symm⟩
    · exact .inr (.inl ⟨herr, .inl ⟨h.symm, hm, i, hd, hread⟩⟩)
    · exact .inr (.inr ⟨i, res, rfl, hready, hres, h.symm⟩)
  | error e =>
    rw [command_illegal hd] at h
    cases herr : s.err with
    | true => rw [ifAccepting_fault herr] at h; injection h with h; exact .inl ⟨rfl, h.symm⟩
    | false =>
      rw [ifAccepting_ok herr] at h
      injection h with h
      exact .inr (.inl ⟨rfl, .inr ⟨h.symm, legalDatum_of_decode_error hd⟩⟩)

/-- The two states are alike in `ERR` and `CAUSE`. -/
def sameFault (s t : State) : Prop := t.err = s.err ∧ t.cause = s.cause

/-- A write to a location other than `CMD` leaves `ERR` and `CAUSE` (R56, R176). -/
theorem perform_write_sameFault {addr : PortAddr} {v : Limb} {s t : State} (hc : addr ≠ cmdAddr)
    (h : perform (.wrl addr v) s = .next t) : sameFault s t := by
  rw [perform_write hc, ifAccepting] at h
  injection h with h
  subst h
  split
  · exact ⟨rfl, rfl⟩
  · obtain ⟨_, _, _, _, herr, hcause, _⟩ := writeLocation_sameResults (locate addr) v s
    exact ⟨herr, hcause⟩

/-- A read leaves `ERR` and `CAUSE` (R57, R175). -/
theorem portRead_sameFault (addr : PortAddr) (s : State) : sameFault s (portRead addr s) := by
  obtain ⟨_, _, h⟩ := portRead_registers addr s
  rw [h]
  exact ⟨rfl, rfl⟩

/-- One host action resets the core, or is a write to `CMD` that faults outside the fault state, or leaves `ERR` and
`CAUSE` (R29). -/
theorem perform_fault_cases {a : HostAction} {s t : State} (h : perform a s = .next t) :
    (a = .reset ∧ t = applyReset s) ∨ (∃ v, a = .wrl cmdAddr v ∧ s.err = false ∧ faultsTo v s t) ∨
      (a ≠ .reset ∧ sameFault s t) := by
  cases a with
  | wrl addr v =>
    by_cases hc : addr = cmdAddr
    · subst hc
      rw [perform_command] at h
      obtain ⟨_, rfl⟩ | ⟨herr, hfault⟩ | ⟨_, _, _, _, _, rfl⟩ := command_cases h
      · exact .inr (.inr ⟨nofun, rfl, rfl⟩)
      · exact .inr (.inl ⟨v, rfl, herr, hfault⟩)
      · exact .inr (.inr ⟨nofun, commit_err .., commit_cause ..⟩)
    · exact .inr (.inr ⟨nofun, perform_write_sameFault hc h⟩)
  | rdl addr =>
    injection h with h
    exact .inr (.inr ⟨nofun, h ▸ portRead_sameFault addr s⟩)
  | reset => injection h with h; exact .inl ⟨rfl, h.symm⟩
  | secondHost => cases h

/-- One step, the same: `faultsTo` speaks of the state with the action taken off the host's list. -/
theorem step_fault_cases {s t : State} (h : step s = .next t) :
    (∃ rest, s.pending = .reset :: rest ∧ t = applyReset { s with pending := rest }) ∨
      (∃ v rest, s.pending = .wrl cmdAddr v :: rest ∧ s.err = false ∧ faultsTo v { s with pending := rest } t) ∨
      ((∀ rest, s.pending ≠ .reset :: rest) ∧ sameFault s t) := by
  obtain ⟨hp, rfl⟩ | ⟨a, rest, hp, hperform⟩ := step_cases h
  · exact .inr (.inr ⟨by simp [hp], rfl, rfl⟩)
  · obtain ⟨rfl, ht⟩ | ⟨v, rfl, herr, hfault⟩ | ⟨ha, hsame⟩ := perform_fault_cases hperform
    · exact .inl ⟨rest, hp, ht⟩
    · exact .inr (.inl ⟨v, rest, hp, herr, hfault⟩)
    · exact .inr (.inr ⟨by simp [hp, ha], hsame⟩)

/-- Settles O1: R37, field by field. -/
theorem resetLeavesEveryRegisterZero : Obligations.ResetLeavesEveryRegisterZero :=
  ⟨reset_x, reset_y, reset_m, reset_e, reset_r, reset_q, reset_valid, reset_f, reset_err, reset_cause, reset_path⟩

/-- Settles O36, by the three things a step can do to `ERR` and `CAUSE`: a reset, a fault, or nothing. -/
theorem faultIsStickyUntilReset : Obligations.FaultIsStickyUntilReset := by
  intro s t h
  obtain ⟨rest, hp, rfl⟩ | ⟨v, rest, hp, herr, hfault⟩ | ⟨hnoreset, herr, hcause⟩ := step_fault_cases h
  · exact ⟨fun _ hno => absurd hp (hno rest), fun _ _ => .inl ⟨applyReset_err _, applyReset_cause _⟩,
      fun _ _ => ⟨applyReset_err _, applyReset_cause _⟩⟩
  · have hcause := cause_of_faultsTo hfault
    exact ⟨by simp [herr], fun _ _ => .inr ⟨v, rest, hp, err_of_faultsTo hfault, hcause⟩, by simp [hp]⟩
  · exact ⟨fun hset _ => ⟨herr.trans hset, hcause⟩,
      fun hclear hzero => .inl ⟨herr.trans hclear, hcause.trans hzero⟩,
      fun rest hp => absurd hp (hnoreset rest)⟩

end Sys2Proof.Machine
end

section
/-!
SUPPORT and PROOFS of the statements of 20_memory.md. A step with an access that the core ignores in front (R55, R56),
and what a step of a system does to its instances (R63).
-/

namespace Sys2Proof.Machine

/-- In any state, a write to a location that ignores writes only takes the access off the host's list (R55, R56). -/
theorem step_write_ignored {s : State} {addr : PortAddr} {v : Limb} {rest : List HostAction} {l : Location}
    (hp : s.pending = .wrl addr v :: rest) (hl : locate addr = l) (hc : l ≠ .cmd)
    (hw : ∀ t, writeLocation l v t = t) : step s = .next { s with pending := rest } := by
  have haddr : addr ≠ cmdAddr := fun ha => hc (hl.symm.trans ((locate_eq_cmd_iff addr).mpr ha))
  rw [step_action hp, perform_write haddr, hl, hw, ifAccepting, ite_self]

/-- In any state, a read of a location that answers 0 only takes the access off the host's list and yields 0
(R55, R56). -/
theorem step_read_zero {s : State} {addr : PortAddr} {rest : List HostAction} {l : Location}
    (hp : s.pending = .rdl addr :: rest) (hl : locate addr = l) (hr : ∀ t, readLocation l t = (0, t)) :
    step s = .next { s with pending := rest, yields := 0 :: s.yields } := by
  rw [step_action hp, perform, portRead, hl, hr, yieldLimb]

/-- A step of a system is a step of the instance it drives, put back in that instance's place (R63, R183). -/
theorem systemStep_cases {k : Nat} {sys sys' : System} (h : systemStep k sys = .next sys') :
    ∃ s t, sys.instances[k]? = some s ∧ step s = .next t ∧ sys' = setInstance sys k t := by
  unfold systemStep at h
  split at h
  case h_1 => cases h
  case h_2 s hs =>
    split at h
    case h_1 t ht => injection h with h; exact ⟨s, t, hs, ht, h.symm⟩
    case h_2 => cases h
    case h_3 => cases h

/-- Settles O53: a reserved address is located at `.reserved`, which reads 0 and ignores writes. -/
theorem reservedLocationsAreInert : Obligations.ReservedLocationsAreInert := by
  intro s addr rest haddr
  have hl := locate_reserved addr haddr
  exact ⟨fun hp => step_read_zero hp hl fun _ => rfl,
    fun v hp => step_write_ignored hp hl nofun fun _ => rfl⟩

/-- Settles O54, by the location that each address range names. -/
theorem readOnlyAndWriteOnlyLocations : Obligations.ReadOnlyAndWriteOnlyLocations := by
  intro s addr rest
  constructor
  · intro haddr v hp
    obtain ⟨hlo, hhi⟩ | ⟨hlo, hhi⟩ | hstatus := haddr
    · exact step_write_ignored hp (locate_r addr hlo (Nat.lt_succ_of_le hhi)) nofun fun _ => rfl
    · exact step_write_ignored hp (locate_q addr hlo (Nat.lt_succ_of_le hhi)) nofun fun _ => rfl
    · exact step_write_ignored hp (locate_status addr hstatus) nofun fun _ => rfl
  · exact fun hcmd hp => step_read_zero hp (locate_cmd addr hcmd) fun _ => rfl

/-- Settles O59: replacing instance `k` keeps the length of the list and every other position. -/
theorem instanceStepLeavesTheOthers : Obligations.InstanceStepLeavesTheOthers := by
  intro sys sys' k h
  obtain ⟨s, t, _, _, rfl⟩ := systemStep_cases h
  exact ⟨List.length_set, fun j hj => List.getElem?_set_ne hj.symm⟩

end Sys2Proof.Machine
end

section
/-!
SUPPORT and PROOFS of the statements of 30_encoding.md. A legal datum is determined by its fields `OP` and `STRAT` (R71,
R76), a command by the same two fields (R73, R74): so decode and encode are inverse to each other (R75).
-/

namespace Sys2Proof.Machine

/-- The bits above the fields `OP` and `STRAT` are clear in a legal datum (R76). -/
theorem upperBits_zField_of_legalDatum {v : Limb} (h : legalDatum v = true) :
    v.extractLsb' 8 56 = 0 ∧ zField v = 0 := by
  simp only [legalDatum, Bool.and_eq_true] at h
  obtain ⟨⟨hupper, hz⟩, _⟩ := h
  exact ⟨beq_iff_eq.mp hupper, beq_iff_eq.mp hz⟩

/-- A datum is its four fields, the bits above the command word counted as one (R70, R71). -/
theorem datum_ext {v w : Limb} (hupper : v.extractLsb' 8 56 = w.extractLsb' 8 56) (hz : zField v = zField w)
    (hstrat : stratField v = stratField w) (hop : opField v = opField w) : v = w := by
  have hv := v.isLt
  have hw := w.isLt
  simp only [zField, stratField, opField, ← BitVec.toNat_inj, BitVec.extractLsb'_toNat,
    Nat.shiftRight_eq_div_pow] at *
  omega

/-- A legal datum is determined by its two fields (R76). -/
theorem legalDatum_ext {v w : Limb} (hv : legalDatum v = true) (hw : legalDatum w = true)
    (hop : opField v = opField w) (hstrat : stratField v = stratField w) : v = w := by
  obtain ⟨hvupper, hvz⟩ := upperBits_zField_of_legalDatum hv
  obtain ⟨hwupper, hwz⟩ := upperBits_zField_of_legalDatum hw
  exact datum_ext (hvupper.trans hwupper.symm) (hvz.trans hwz.symm) hstrat hop

/-- Of a legal datum the decoder reads the two fields (R78). -/
theorem decode_of_legalDatum {v : Limb} (h : legalDatum v = true) :
    decode v = decodeFields (opField v) (stratField v) := by
  obtain ⟨hupper, hz⟩ := upperBits_zField_of_legalDatum h
  rw [decode, if_neg (not_not.mpr hupper), if_neg (not_not.mpr hz)]

/-- Two fields stand for a command exactly when they are that command's (R73, R74). -/
theorem decodeFields_eq_ok_iff (op : BitVec 4) (strat : BitVec 3) (i : Instr) :
    decodeFields op strat = .ok i ↔ op = opOf i ∧ strat = stratOf i := by
  revert op strat
  cases i <;> decide

/-- The family `LegalWord`, for every command (R71, R76). -/
theorem legalWord_statement : ∀ i : Instr, Laws.LegalWord.Statement i
  | .addc => Laws.LegalWord.addc
  | .subc => Laws.LegalWord.subc
  | .divrem => Laws.LegalWord.divrem
  | .addmod => Laws.LegalWord.addmod
  | .addmodDiv => Laws.LegalWord.addmodDiv
  | .addmodCfp => Laws.LegalWord.addmodCfp
  | .addmodUfp => Laws.LegalWord.addmodUfp
  | .addmodPre => Laws.LegalWord.addmodPre
  | .addmodPreb => Laws.LegalWord.addmodPreb
  | .addmodThr => Laws.LegalWord.addmodThr

/-- The decoder answers some command exactly on the data that R76 calls legal. -/
theorem exists_decode_eq_ok_iff (v : Limb) : (∃ i, decode v = .ok i) ↔ legalDatum v = true := by
  rw [← decode_toBool]
  cases decode v with
  | ok i => exact ⟨fun _ => rfl, fun _ => ⟨i, rfl⟩⟩
  | error e => exact ⟨nofun, nofun⟩

/-- A datum decodes to a command exactly when it is its encoding (R75). -/
theorem decode_eq_ok_iff_eq_encode (v : Limb) (i : Instr) : decode v = .ok i ↔ v = encode i := by
  obtain ⟨hlegal, hop, hstrat, _⟩ := legalWord_statement i
  constructor
  · intro h
    have hv : legalDatum v = true := (exists_decode_eq_ok_iff v).mp ⟨i, h⟩
    rw [decode_of_legalDatum hv, decodeFields_eq_ok_iff] at h
    obtain ⟨hvop, hvstrat⟩ := h
    exact legalDatum_ext hv hlegal (hvop.trans hop.symm) (hvstrat.trans hstrat.symm)
  · rintro rfl
    rw [decode_of_legalDatum hlegal, decodeFields_eq_ok_iff]
    exact ⟨hop, hstrat⟩

/-- Outside the fault state an illegal datum is answered by the fault entry alone (R172, R174). -/
theorem command_of_not_legalDatum {v : Limb} {s : State} (hv : legalDatum v = false) (herr : s.err = false) :
    command v s = .next (raise causeIllegalCmd s) := by
  cases hd : decode v with
  | ok i => simp [(exists_decode_eq_ok_iff v).mp ⟨i, hd⟩] at hv
  | error e => rw [command_illegal hd, ifAccepting_ok herr]

/-- Settles O47: decode and encode are inverse to each other; the ten words are the table's. -/
theorem decodeAndEncodeAgree : Obligations.DecodeAndEncodeAgree :=
  ⟨decode_eq_ok_iff_eq_encode, rfl, rfl, rfl, rfl, rfl, rfl, rfl, rfl, rfl, rfl⟩

/-- Settles O45: an illegal datum is answered by the fault entry, which leaves the operands. -/
theorem decodeAcceptsExactlyLegalData : Obligations.DecodeAcceptsExactlyLegalData := by
  intro v
  refine ⟨exists_decode_eq_ok_iff v, fun hv s herr => ⟨raise causeIllegalCmd s, command_of_not_legalDatum hv herr, ?_⟩⟩
  exact ⟨raise_err .., raise_cause .., raise_valid .., raise_x .., raise_e .., raise_y .., raise_m ..⟩

end Sys2Proof.Machine
end

section
/-!
SUPPORT and PROOFS of the statements of 40_carry_primitives.md. The flag with the value represents the exact sum and the
exact difference (R99 law 3); `ADDC` and `SUBC` write that pair and nothing else (R91, R96).
-/

namespace Sys2Proof.Machine

theorem addWithCarry_flag_iff (a b : Word) : (addWithCarry a b).2 = true ↔ 2 ^ 256 ≤ a.toNat + b.toNat := by
  rw [addWithCarry_flag, decide_eq_true_iff]

theorem subWithCarry_flag_iff (a b : Word) : (subWithCarry a b).2 = true ↔ a.toNat < b.toNat := by
  rw [subWithCarry_flag, decide_eq_true_iff]

/-- The carry above the value is the exact sum (R99 law 3). -/
theorem addWithCarry_exact (a b : Word) :
    (addWithCarry a b).1.toNat + (addWithCarry a b).2.toNat * 2 ^ 256 = a.toNat + b.toNat := by
  rw [← wideSum_addWithCarry, wideSum_toNat, Nat.add_comm]

/-- The value of SubWithCarry is the non-negative residue of the exact difference (R95). -/
theorem subWithCarry_residue (a b : Word) :
    ((subWithCarry a b).1.toNat : Int) = ((a.toNat : Int) - b.toNat) % 2 ^ 256 := by
  have hb := b.isLt
  rw [subWithCarry_value]
  omega

/-- The value less the borrow is the exact difference (R99 law 3). -/
theorem subWithCarry_exact (a b : Word) :
    ((subWithCarry a b).1.toNat : Int) - ((subWithCarry a b).2.toNat : Int) * 2 ^ 256 = (a.toNat : Int) - b.toNat := by
  have ha := a.isLt
  have hb := b.isLt
  rw [subWithCarry_residue, subWithCarry_flag]
  by_cases hborrow : a.toNat < b.toNat
  · simp only [hborrow, decide_true, Bool.toNat_true]; omega
  · simp only [hborrow, decide_false, Bool.toNat_false]; omega

/-- `ADDC` outside the fault state (R91): it reads neither `M` nor `E`. -/
theorem exec_addc_accepting {s : State} (herr : s.err = false) :
    exec .addc s = .next (commit { r := (addWithCarry s.x s.y).1, f := (addWithCarry s.x s.y).2 } s) :=
  ifAccepting_ok herr

/-- `SUBC` outside the fault state (R96). -/
theorem exec_subc_accepting {s : State} (herr : s.err = false) :
    exec .subc s = .next (commit { r := (subWithCarry s.x s.y).1, f := (subWithCarry s.x s.y).2 } s) :=
  ifAccepting_ok herr

/-- Settles O5: the value, the carry, and the two together. -/
theorem addWithCarryIsExact : Obligations.AddWithCarryIsExact :=
  fun a b => ⟨addWithCarry_value a b, addWithCarry_flag_iff a b, addWithCarry_exact a b⟩

/-- Settles O6: `ADDC` commits the pair of AddWithCarry, which fixes `R` and `F`; the rest is the frame of `commit`. -/
theorem addcWritesSumAndCarry : Obligations.AddcWritesSumAndCarry :=
  ⟨rfl, fun s herr =>
    ⟨_, exec_addc_accepting herr, addWithCarry_value s.x s.y, addWithCarry_flag_iff s.x s.y, rfl⟩⟩

/-- Settles O7: the residue, the borrow, and the two together. -/
theorem subWithCarryIsExact : Obligations.SubWithCarryIsExact :=
  fun a b => ⟨subWithCarry_residue a b, subWithCarry_flag_iff a b, subWithCarry_exact a b⟩

/-- Settles O8: `SUBC` commits the pair of SubWithCarry, which fixes `R` and `F`; the rest is the frame of `commit`. -/
theorem subcWritesDifferenceAndBorrow : Obligations.SubcWritesDifferenceAndBorrow :=
  ⟨rfl, fun s herr =>
    ⟨_, exec_subc_accepting herr, subWithCarry_residue s.x s.y, subWithCarry_flag_iff s.x s.y, rfl⟩⟩

end Sys2Proof.Machine
end

section
/-!
SUPPORT and PROOFS of the statements of 41_divrem.md. The pair of DivRem meets the division identity (R110); `DIVREM`
commits that pair and nothing else, and a command that finds a zero modulus only raises DivByZero (R111, R112).
-/

namespace Sys2Proof.Machine

/-- The division identity of R110. -/
theorem divRem_identity (n : Wide) (d : Word) (hd : d ≠ 0) :
    n.toNat = (divRem n d hd).1.toNat * d.toNat + (divRem n d hd).2.toNat := by
  rw [divRem_quotient, divRem_remainder, Nat.div_add_mod']

/-- The remainder bound of R110. -/
theorem divRem_remainder_lt (n : Wide) (d : Word) (hd : d ≠ 0) : (divRem n d hd).2.toNat < d.toNat := by
  rw [divRem_remainder]
  exact Nat.mod_lt _ (toNat_pos_of_ne_zero hd)

/-- The fault entry leaves the operand registers (R174). -/
theorem sameOperands_raise (code : BitVec 4) (s : State) : sameOperands s (raise code s) :=
  ⟨raise_x .., raise_e .., raise_y .., raise_m ..⟩

/-- Outside the fault state a command that divides by a zero modulus only raises DivByZero (R112, R171). -/
theorem exec_zero_modulus {i : Instr} {s : State} (hread : readsModulus i = true) (herr : s.err = false)
    (hm : s.m = 0) : exec i s = .next (raise causeDivByZero s) := by
  obtain ⟨hfault, _⟩ | ⟨_, _, _, hraise⟩ | ⟨⟨_, hnonzero⟩, _⟩ := exec_cases i s
  · simp [herr] at hfault
  · exact hraise
  · exact absurd hm (hnonzero hread)

/-- `DIVREM` outside the fault state with a modulus that is not zero (R111). -/
theorem exec_divrem_ready {s : State} (herr : s.err = false) (hm : s.m ≠ 0) :
    exec .divrem s =
      .next (commit { r := (divRem (dividend s) s.m hm).2, q := (divRem (dividend s) s.m hm).1 } s) := by
  rw [exec, execDivrem, ifAccepting_ok herr, withModulus_nonzero hm]

/-- Settles O13: the division identity and the remainder bound. -/
theorem divRemMeetsContract : Obligations.DivRemMeetsContract :=
  fun n d hd => ⟨divRem_identity n d hd, divRem_remainder_lt n d hd⟩

/-- Settles O15: with `M` not zero `DIVREM` commits the pair of DivRem, which fixes `Q` and `R`, and the rest is the frame
of `commit`; with `M` zero it raises DivByZero. -/
theorem divremWritesQuotientAndRemainder : Obligations.DivremWritesQuotientAndRemainder := by
  refine ⟨rfl, fun s herr => ⟨fun hm => ?_, fun hm => ?_⟩⟩
  · have hidentity := divRem_identity (dividend s) s.m hm
    rw [dividend_toNat] at hidentity
    exact ⟨_, exec_divrem_ready herr hm, hidentity, divRem_remainder_lt (dividend s) s.m hm, rfl⟩
  · exact ⟨_, exec_zero_modulus rfl herr hm, raise_err .., raise_cause .., raise_valid .., sameOperands_raise ..⟩

end Sys2Proof.Machine
end

section
/-!
SUPPORT and PROOFS of the statements of 42_addmod.md. What each strategy function answers, value and path, over the exact
sum (R133 to R138, the table of R143); an `ADDMOD` command outside the fault state commits that pair and nothing else
(R130), or raises DivByZero (R140).
-/

namespace Sys2Proof.Machine

/-! ### The shared steps of the strategies (R132, R141) -/

/-- Both operands reduced (R132 (b)). -/
theorem lt_and_lt_iff (x y m : Word) :
    (lt x m = true ∧ lt y m = true) ↔ x.toNat < m.toNat ∧ y.toNat < m.toNat := by
  rw [lt_eq, lt_eq, decide_eq_true_iff, decide_eq_true_iff]

theorem addWithCarry_flag_eq_false_iff (x y : Word) :
    (addWithCarry x y).2 = false ↔ x.toNat + y.toNat < 2 ^ 256 := by
  rw [addWithCarry_flag, decide_eq_false_iff_not, Nat.not_le]

/-- Without a carry the 256-bit sum is already the dividend of the modular sum (R134, D26). -/
theorem divRem_wideOfWord_sum (x y m : Word) (hm : m ≠ 0) (hsum : x.toNat + y.toNat < 2 ^ 256) :
    (divRem (wideOfWord (addWithCarry x y).1) m hm).2.toNat = (x.toNat + y.toNat) % m.toNat := by
  rw [divRem_remainder, wideOfWord_toNat, addWithCarry_value, Nat.mod_eq_of_lt hsum]

/-- The corrective subtraction on residues of the operands gives the modular sum of the operands (R141 (c), (d)). -/
theorem correctSum_of_residues {x y x' y' m : Word} (hm : m ≠ 0) (hx : x'.toNat = x.toNat % m.toNat)
    (hy : y'.toNat = y.toNat % m.toNat) :
    (correctSum (addWithCarry x' y').1 (addWithCarry x' y').2 m).1.toNat = (x.toNat + y.toNat) % m.toNat ∧
    (correctSum (addWithCarry x' y').1 (addWithCarry x' y').2 m).2 =
      (if x.toNat % m.toNat + y.toNat % m.toNat < m.toNat then .pass else .sub) := by
  have hpos := toNat_pos_of_ne_zero hm
  have hspec := correctSum_spec x' y' m (hx ▸ Nat.mod_lt _ hpos) (hy ▸ Nat.mod_lt _ hpos)
  rwa [hx, hy, ← Nat.add_mod] at hspec

/-- Under the threshold condition an operand is below twice the modulus (R141 (c)). -/
theorem lt_two_mul_of_top_le {v m : Nat} (hm : m / 2 ^ 192 ≠ 0) (hv : v / 2 ^ 192 ≤ m / 2 ^ 192) : v < 2 * m := by
  omega

/-! ### One lemma per strategy -/

/-- Strategy 1: always the 320-bit division (R133). -/
theorem addModDiv_spec (x y m : Word) (hm : m ≠ 0) :
    (addModDiv x y m hm).1.toNat = (x.toNat + y.toNat) % m.toNat ∧ (addModDiv x y m hm).2 = .div320 :=
  ⟨divideSum_value x y m hm, rfl⟩

/-- On reduced operands strategy 2 is the corrective subtraction: its two branches there are split by the carry alone
(R134). -/
theorem addModCfp_of_reduced {x y m : Word} (hm : m ≠ 0) (hred : lt x m = true ∧ lt y m = true) :
    addModCfp x y m hm = correctSum (addWithCarry x y).1 (addWithCarry x y).2 m := by
  obtain ⟨hx, hy⟩ := hred
  cases hcarry : (addWithCarry x y).2 with
  | false => cases hlt : lt (addWithCarry x y).1 m <;> simp [addModCfp, correctSum, hx, hy, hcarry, hlt]
  | true => simp [addModCfp, correctSum, hx, hy, hcarry]

/-- On operands that are not both reduced strategy 2 divides, by 256 bits when the sum does not carry (R134). -/
theorem addModCfp_of_not_reduced {x y m : Word} (hm : m ≠ 0) (hred : ¬ (lt x m = true ∧ lt y m = true)) :
    addModCfp x y m hm =
      if (addWithCarry x y).2 = false then ((divRem (wideOfWord (addWithCarry x y).1) m hm).2, .div256)
      else divideSum (addWithCarry x y).1 (addWithCarry x y).2 m hm := by
  have hred' : (lt x m && lt y m) = false := by rwa [← Bool.not_eq_true, Bool.and_eq_true]
  cases hcarry : (addWithCarry x y).2 with
  | false => simp [addModCfp, hred', hcarry]
  | true => simp [addModCfp, hred', hcarry, divideSum, wideSum, carryLimb]

/-- Strategy 2 and its four branches (R134). -/
theorem addModCfp_spec (x y m : Word) (hm : m ≠ 0) :
    (addModCfp x y m hm).1.toNat = (x.toNat + y.toNat) % m.toNat ∧
    (addModCfp x y m hm).2 =
      if x.toNat < m.toNat ∧ y.toNat < m.toNat then (if x.toNat + y.toNat < m.toNat then .pass else .sub)
      else if x.toNat + y.toNat < 2 ^ 256 then .div256 else .div320 := by
  by_cases hred : x.toNat < m.toNat ∧ y.toNat < m.toNat
  · rw [addModCfp_of_reduced hm ((lt_and_lt_iff x y m).mpr hred), if_pos hred]
    exact hred.elim (correctSum_spec x y m)
  · rw [addModCfp_of_not_reduced hm (mt (lt_and_lt_iff x y m).mp hred), if_neg hred]
    by_cases hsum : x.toNat + y.toNat < 2 ^ 256
    · rw [if_pos ((addWithCarry_flag_eq_false_iff x y).mpr hsum), if_pos hsum]
      exact ⟨divRem_wideOfWord_sum x y m hm hsum, rfl⟩
    · rw [if_neg (mt (addWithCarry_flag_eq_false_iff x y).mp hsum), if_neg hsum]
      exact ⟨divideSum_value x y m hm, rfl⟩

/-- Strategy 3: one corrective subtraction on reduced operands, the 320-bit division otherwise (R135). -/
theorem addModUfp_spec (x y m : Word) (hm : m ≠ 0) :
    (addModUfp x y m hm).1.toNat = (x.toNat + y.toNat) % m.toNat ∧
    (addModUfp x y m hm).2 =
      if x.toNat < m.toNat ∧ y.toNat < m.toNat then (if x.toNat + y.toNat < m.toNat then .pass else .sub)
      else .div320 := by
  simp only [addModUfp, lt_and_lt_iff]
  by_cases hred : x.toNat < m.toNat ∧ y.toNat < m.toNat
  · rw [if_pos hred, if_pos hred]
    exact hred.elim (correctSum_spec x y m)
  · rw [if_neg hred, if_neg hred]
    exact ⟨divideSum_value x y m hm, rfl⟩

/-- Strategy 4: one corrective subtraction on the operands' residues (R136). -/
theorem addModPre_spec (x y m : Word) (hm : m ≠ 0) :
    (addModPre x y m hm).1.toNat = (x.toNat + y.toNat) % m.toNat ∧
    (addModPre x y m hm).2 = if x.toNat % m.toNat + y.toNat % m.toNat < m.toNat then .pass else .sub :=
  correctSum_of_residues hm (preReduce_toNat x m hm) (preReduce_toNat y m hm)

/-- Strategy 5 is strategy 4: the borrow of `sv - m` is the comparison of `sv` with `m` (R137, R98). -/
theorem addModPreb_eq_addModPre (x y m : Word) (hm : m ≠ 0) : addModPreb x y m hm = addModPre x y m hm := rfl

/-- Strategy 6: one corrective subtraction on the adjusted operands under the threshold condition, the 320-bit division
otherwise (R138). -/
theorem addModThr_spec (x y m : Word) (hm : m ≠ 0) :
    (addModThr x y m hm).1.toNat = (x.toNat + y.toNat) % m.toNat ∧
    (addModThr x y m hm).2 =
      if m.toNat / 2 ^ 192 ≠ 0 ∧ x.toNat / 2 ^ 192 ≤ m.toNat / 2 ^ 192 ∧ y.toNat / 2 ^ 192 ≤ m.toNat / 2 ^ 192 then
        (if x.toNat % m.toNat + y.toNat % m.toNat < m.toNat then .pass else .sub)
      else .div320 := by
  simp only [addModThr, thresholdHolds_iff]
  split
  · obtain ⟨htop, hx, hy⟩ := ‹_ ∧ _›
    exact correctSum_of_residues hm (preAdjust_toNat x m (lt_two_mul_of_top_le htop hx))
      (preAdjust_toNat y m (lt_two_mul_of_top_le htop hy))
  · exact ⟨divideSum_value x y m hm, rfl⟩

/-- Every strategy answers the modular sum (R142). -/
theorem addMod_value (st : Strategy) (x y m : Word) (hm : m ≠ 0) :
    (addMod st x y m hm).1.toNat = (x.toNat + y.toNat) % m.toNat := by
  cases st with
  | div => exact (addModDiv_spec x y m hm).1
  | cfp => exact (addModCfp_spec x y m hm).1
  | ufp => exact (addModUfp_spec x y m hm).1
  | pre => exact (addModPre_spec x y m hm).1
  | preb => exact (addModPre_spec x y m hm).1
  | thr => exact (addModThr_spec x y m hm).1

theorem addMod_value_lt (st : Strategy) (x y m : Word) (hm : m ≠ 0) :
    (addMod st x y m hm).1.toNat < m.toNat := by
  rw [addMod_value]
  exact Nat.mod_lt _ (toNat_pos_of_ne_zero hm)

/-! ### The commands -/

/-- A command that runs a strategy is the wrapper of R130 with that strategy. -/
theorem exec_of_strategyOf {i : Instr} {st : Strategy} (h : strategyOf i = some st) (s : State) :
    exec i s = execWithStrategy st s := by
  cases i <;> cases h <;> rfl

/-- A command that runs a strategy divides by `M` (R171). -/
theorem readsModulus_of_strategyOf {i : Instr} {st : Strategy} (h : strategyOf i = some st) :
    readsModulus i = true := by
  cases i <;> cases h <;> rfl

/-- A command that runs a strategy, outside the fault state and with a modulus that is not zero: it commits the pair of
the strategy (R130). -/
theorem exec_strategy_ready {i : Instr} {st : Strategy} (h : strategyOf i = some st) {s : State}
    (herr : s.err = false) (hm : s.m ≠ 0) :
    exec i s = .next (commit
      { r := (addMod st s.x s.y s.m hm).1, path := pathCode (addMod st s.x s.y s.m hm).2 } s) := by
  rw [exec_of_strategyOf h, execWithStrategy_ready st herr hm]

/-- The same, as the four facts that the statements on a command's `PATH` ask for. -/
theorem exec_strategy_completes {i : Instr} {st : Strategy} (h : strategyOf i = some st) {s : State}
    (herr : s.err = false) (hm : s.m ≠ 0) {code : BitVec 3} (hcode : pathCode (addMod st s.x s.y s.m hm).2 = code) :
    ∃ t, exec i s = .next t ∧ t.r.toNat = (s.x.toNat + s.y.toNat) % s.m.toNat ∧ t.path = code ∧
      t = { s with r := t.r, q := 0, f := false, path := t.path, valid := true } :=
  ⟨_, exec_strategy_ready h herr hm, addMod_value .., hcode, rfl⟩

/-- `PATH` after a final corrective subtraction: 3 when the sum passes, 4 when `M` is subtracted (R131). -/
theorem pathCode_correction (p : Prop) [Decidable p] :
    pathCode (if p then .pass else .sub) = if p then 3 else 4 := apply_ite ..

/-- Each of the seven `ADDMOD` words runs a strategy (R130, R139). -/
theorem exists_strategyOf :
    ∀ i ∈ [Instr.addmod, .addmodDiv, .addmodCfp, .addmodUfp, .addmodPre, .addmodPreb, .addmodThr],
      ∃ st, strategyOf i = some st := by
  simp [strategyOf]

/-- Settles O21: with `M` not zero the command commits the pair of its strategy, and the rest is the frame of `commit`;
with `M` zero it raises DivByZero. -/
theorem addmodWritesModularSum : Obligations.AddmodWritesModularSum := by
  intro i hi s herr
  obtain ⟨st, hst⟩ := exists_strategyOf i hi
  refine ⟨fun hm => ?_, fun hm => ?_⟩
  · obtain ⟨hpos, hle⟩ := pathCode_range (addMod st s.x s.y s.m hm).2
    refine ⟨_, exec_strategy_ready hst herr hm, addMod_value .., addMod_value_lt .., hpos, hle, ?_, rfl⟩
    intro strat hstrat
    rw [commit_path, Option.some_inj.mp (hst.symm.trans hstrat)]
  · exact ⟨_, exec_zero_modulus (readsModulus_of_strategyOf hst) herr hm, raise_err .., raise_cause ..,
      raise_valid .., sameOperands_raise ..⟩

/-- Settles O22: each strategy's value is the modular sum, so any two agree. -/
theorem strategiesAgree : Obligations.StrategiesAgree := fun st st' x y m hm =>
  ⟨BitVec.eq_of_toNat_eq ((addMod_value st x y m hm).trans (addMod_value st' x y m hm).symm),
    addMod_value st x y m hm, addMod_value_lt st x y m hm⟩

/-- Settles O23: strategy 1 has one path. -/
theorem divisionOnlyPath : Obligations.DivisionOnlyPath :=
  ⟨rfl, fun _ herr hm => ⟨_, exec_strategy_ready (st := .div) rfl herr hm, addMod_value .., rfl, rfl⟩⟩

/-- Settles O24: the four branches of strategy 2, as path codes. -/
theorem carryFastPath : Obligations.CarryFastPath := by
  refine ⟨rfl, fun s herr hm => exec_strategy_completes (st := .cfp) rfl herr hm ?_⟩
  rw [addMod, (addModCfp_spec ..).2, apply_ite pathCode, pathCode_correction, apply_ite pathCode, pathCode, pathCode]

/-- Settles O25: the two branches of strategy 3, as path codes. -/
theorem unifiedFastPath : Obligations.UnifiedFastPath := by
  refine ⟨rfl, fun s herr hm => exec_strategy_completes (st := .ufp) rfl herr hm ?_⟩
  rw [addMod, (addModUfp_spec ..).2, apply_ite pathCode, pathCode_correction, pathCode]

/-- Settles O26: strategy 4 ends in a corrective subtraction. -/
theorem preReductionPath : Obligations.PreReductionPath := by
  refine ⟨rfl, fun s herr hm => exec_strategy_completes (st := .pre) rfl herr hm ?_⟩
  rw [addMod, (addModPre_spec ..).2, pathCode_correction]

/-- `ADDMOD.PREB` does what `ADDMOD.PRE` does, in every state (R137). -/
theorem exec_addmodPreb_eq_addmodPre (s : State) : exec .addmodPreb s = exec .addmodPre s := by
  rw [exec_of_strategyOf (st := .preb) rfl, exec_of_strategyOf (st := .pre) rfl]
  simp only [execWithStrategy, addMod, addModPreb_eq_addModPre]

/-- Settles O27: strategy 5 answers the pair of strategy 4, so the two commands commit the same. -/
theorem borrowTestMatchesPreReduction : Obligations.BorrowTestMatchesPreReduction := by
  refine ⟨rfl, fun s herr hm => ?_⟩
  obtain ⟨t, hexec, hstate⟩ := preReductionPath.2 s herr hm
  exact ⟨t, (exec_addmodPreb_eq_addmodPre s).trans hexec, hexec, hstate⟩

/-- Settles O28: the two branches of strategy 6, as path codes. -/
theorem thresholdPath : Obligations.ThresholdPath := by
  refine ⟨rfl, fun s herr hm => exec_strategy_completes (st := .thr) rfl herr hm ?_⟩
  rw [addMod, (addModThr_spec ..).2, apply_ite pathCode, pathCode_correction, pathCode]

/-- Settles O29: both sides are the wrapper of R130 with that strategy. -/
theorem publicOperationRunsPublicStrategy : Obligations.PublicOperationRunsPublicStrategy := by
  refine ⟨rfl, fun s => ?_⟩
  rw [exec_of_strategyOf (i := .addmod) rfl]
  cases Config.publicStrategy <;> rfl

end Sys2Proof.Machine
end

section
/-!
SUPPORT and PROOFS of the statements of 60_exceptions.md. The two fault entries (R171, R172) and their order (R174) from
what a command does outside the fault state; what a read answers and leaves in any state, the fault state included
(R176).
-/

namespace Sys2Proof.Machine

/-! ### The fault entries (R171, R172, R174) -/

/-- The fault entry leaves the host's side of the model. -/
theorem sameHostSide_raise (code : BitVec 4) (s : State) : sameHostSide s (raise code s) :=
  ⟨raise_pending .., raise_yields .., raise_stream ..⟩

/-- Outside the fault state a command that does not divide by `M` completes (R171, R194). -/
theorem exec_without_modulus {i : Instr} {s : State} (hread : readsModulus i = false) (herr : s.err = false) :
    ∃ res, exec i s = .next (commit res s) := by
  obtain ⟨hfault, _⟩ | ⟨_, hreads, _⟩ | ⟨_, res, _, hex⟩ := exec_cases i s
  · simp [herr] at hfault
  · simp [hread] at hreads
  · exact ⟨res, hex⟩

/-- Settles O32: a command that divides by a zero `M` is answered by the fault entry; the other two commands commit, and a
commit leaves `ERR`. -/
theorem zeroModulusRaisesDivByZero : Obligations.ZeroModulusRaisesDivByZero := by
  refine ⟨fun i hread s herr hm => ?_, fun i hread s herr => ?_⟩
  · exact ⟨_, exec_zero_modulus hread herr hm, raise_err .., raise_cause .., raise_valid .., sameOperands_raise ..,
      sameHostSide_raise ..⟩
  · obtain ⟨res, hex⟩ := exec_without_modulus hread herr
    exact ⟨_, hex, (commit_err s res).trans herr⟩

/-- One step with an illegal datum for `CMD` in front, outside the fault state (R172). -/
theorem step_illegal_command {s : State} {v : Limb} {rest : List HostAction}
    (hp : s.pending = .wrl cmdAddr v :: rest) (herr : s.err = false) (hv : legalDatum v = false) :
    step s = .next (raise causeIllegalCmd { s with pending := rest }) := by
  rw [step_action hp, perform_command]
  exact command_of_not_legalDatum hv herr

/-- Settles O33: the step is the fault entry, on the state with the write taken off the host's list. -/
theorem illegalDatumRaisesIllegalCmd : Obligations.IllegalDatumRaisesIllegalCmd := fun s _ rest hp herr hv =>
  ⟨_, step_illegal_command hp herr hv, raise_err .., raise_cause .., raise_valid ..,
    sameOperands_raise causeIllegalCmd { s with pending := rest }, raise_pending .., raise_yields ..⟩

/-- Settles O34: an illegal datum is answered by the fault entry whatever `M` holds; a legal one runs its command, which
finds `M` zero. -/
theorem decodeIsCheckedBeforeModulus : Obligations.DecodeIsCheckedBeforeModulus := by
  refine fun s v herr => ⟨fun hv => ?_, fun i hd hread hm => ?_⟩
  · exact ⟨_, command_of_not_legalDatum hv herr, raise_err .., raise_cause .., raise_valid .., sameOperands_raise ..⟩
  · exact ⟨_, (command_legal hd s).trans (exec_zero_modulus hread herr hm), raise_err .., raise_cause ..,
      raise_valid .., sameOperands_raise ..⟩

/-! ### Reads in any state (R57, R175, R176) -/

theorem readResult_state (v : Limb) (s : State) : ∃ k, (readResult v s).2 = { s with draws := k } := by
  unfold readResult
  split
  · exact ⟨s.draws + 1, rfl⟩
  · exact ⟨s.draws, rfl⟩

/-- A read of `STATUS` answers the stored `CAUSE`, `ERR` and `VALID`; only its `F` and `PATH` can be free values (R175). -/
theorem readStatus_eq (s : State) :
    ∃ p f k, readStatus s = (statusWord p s.cause s.err f s.valid, { s with draws := k }) := by
  unfold readStatus
  split
  · exact ⟨_, _, s.draws + 1, rfl⟩
  · exact ⟨_, _, s.draws, rfl⟩

/-- A read of a location changes nothing but the count of free values drawn (R57, R175). -/
theorem readLocation_state (l : Location) (s : State) : ∃ k, (readLocation l s).2 = { s with draws := k } := by
  cases l with
  | status =>
    obtain ⟨_, _, k, hstatus⟩ := readStatus_eq s
    exact ⟨k, congrArg Prod.snd hstatus⟩
  | r i => exact readResult_state ..
  | q i => exact readResult_state ..
  | _ => exact ⟨s.draws, rfl⟩

/-- One step with a read in front, in any state: the limb read goes to the host, and no register changes (R52, R57,
R176). -/
theorem step_read_any {s : State} {addr : PortAddr} {rest : List HostAction} (hp : s.pending = .rdl addr :: rest) :
    ∃ k, step s = .next { s with
      pending := rest, yields := (readLocation (locate addr) { s with pending := rest }).1 :: s.yields, draws := k } := by
  obtain ⟨k, hstate⟩ := readLocation_state (locate addr) { s with pending := rest }
  exact ⟨k, by rw [step_action hp, perform, portRead, yieldLimb, hstate]⟩

/-- What a read of `STATUS` shows of the fault state (R27, R176): `VALID` = 0, `ERR` = 1, the cause, and zero in the
reserved bits. -/
theorem readLocation_status_fault {s : State} (hlegal : statusLegal s) (herr : s.err = true) :
    (readLocation .status s).1.getLsbD 0 = false ∧ (readLocation .status s).1.getLsbD 2 = true ∧
      (readLocation .status s).1.getLsbD 3 = false ∧ (readLocation .status s).1.extractLsb' 4 4 = s.cause ∧
      (readLocation .status s).1.extractLsb' 11 53 = 0 := by
  obtain ⟨_, hvalid⟩ := hlegal.2 herr
  obtain ⟨p, f, k, hstatus⟩ := readStatus_eq s
  obtain ⟨h0, _, h2, h3, hcause, _, hupper⟩ := statusWord_fields p s.cause s.err f s.valid
  rw [readLocation, hstatus]
  exact ⟨h0.trans hvalid, h2.trans herr, h3, hcause, hupper⟩

/-- Settles O35: a write leaves all but the host's list; a read answers its location, and the address names that
location. -/
theorem faultStateIgnoresWritesAndAnswersReads : Obligations.FaultStateIgnoresWritesAndAnswersReads := by
  intro s addr rest hlegal herr
  refine ⟨fun v hp => (step_action hp).trans (perform_write_fault addr v herr), fun hp => ?_⟩
  obtain ⟨k, hstep⟩ := step_read_any hp
  refine ⟨_, _, hstep, rfl, rfl, ⟨rfl, rfl, rfl, rfl⟩, ⟨rfl, rfl, rfl, rfl, rfl, rfl, rfl⟩, ?x, ?e, ?y, ?m, ?status⟩
  case x =>
    rintro i hi rfl
    rw [locate_x addr hi, readLocation]
  case e =>
    rintro rfl
    rfl
  case y =>
    intro i hi haddr
    rw [locate_y addr (by omega) (by omega), haddr, Nat.add_sub_cancel_left, readLocation]
  case m =>
    intro i hi haddr
    rw [locate_m addr (by omega) (by omega), haddr, Nat.add_sub_cancel_left, readLocation]
  case status =>
    rintro rfl
    exact readLocation_status_fault (s := { s with pending := rest }) hlegal herr

end Sys2Proof.Machine
end

section
/-!
SUPPORT and PROOFS of the statements on the invariant of the core (R28, R29, R30, R32). The invariant speaks of the result
registers and STATUS alone; a host action resets them, writes them by a fault entry or by a command that completes, or
leaves them.
-/

namespace Sys2Proof.Machine

/-! ### What one host action can do to the result registers and STATUS -/

theorem sameResults_refl (s : State) : sameResults s s := ⟨rfl, rfl, rfl, rfl, rfl, rfl, rfl⟩

/-- A write to a location other than `CMD` leaves the result registers and STATUS (R56, R176). -/
theorem perform_write_sameResults {addr : PortAddr} {v : Limb} {s t : State} (hc : addr ≠ cmdAddr)
    (h : perform (.wrl addr v) s = .next t) : sameResults s t := by
  rw [perform_write hc, ifAccepting] at h
  injection h with h
  subst h
  split
  · exact sameResults_refl s
  · exact writeLocation_sameResults (locate addr) v s

/-- A read leaves the result registers and STATUS (R57, R175). -/
theorem portRead_sameResults (addr : PortAddr) (s : State) : sameResults s (portRead addr s) := by
  obtain ⟨_, _, h⟩ := portRead_registers addr s
  rw [h]
  exact sameResults_refl s

/-- One host action resets the core, or is a write to `CMD` that faults or completes a command outside the fault state, or
leaves the result registers and STATUS (R24, R28). -/
theorem perform_result_cases {a : HostAction} {s t : State} (h : perform a s = .next t) :
    t = applyReset s ∨ (∃ v, s.err = false ∧ faultsTo v s t) ∨
      (∃ res, s.err = false ∧ resultLegal res ∧ t = commit res s) ∨ sameResults s t := by
  cases a with
  | wrl addr v =>
    by_cases hc : addr = cmdAddr
    · subst hc
      rw [perform_command] at h
      obtain ⟨_, rfl⟩ | hfault | ⟨_, res, _, ⟨herr, _⟩, hres, ht⟩ := command_cases h
      · exact .inr (.inr (.inr (sameResults_refl t)))
      · exact .inr (.inl ⟨v, hfault⟩)
      · exact .inr (.inr (.inl ⟨res, herr, hres, ht⟩))
    · exact .inr (.inr (.inr (perform_write_sameResults hc h)))
  | rdl addr =>
    injection h with h
    exact .inr (.inr (.inr (h ▸ portRead_sameResults addr s)))
  | reset => injection h with h; exact .inl h.symm
  | secondHost => cases h

/-! ### The invariant after each of them -/

/-- The invariant speaks of nothing but the result registers and STATUS. -/
theorem coreInvariant_of_sameResults {s t : State} (hsame : sameResults s t) (h : coreInvariant s) :
    coreInvariant t := by
  obtain ⟨hr, hq, hvalid, hf, herr, hcause, hpath⟩ := hsame
  simpa only [coreInvariant, statusLegal, noResultIsZero, resultShape, hr, hq, hvalid, hf, herr, hcause, hpath] using h

/-- Outside the fault state the invariant of a state with a result. -/
theorem coreInvariant_of_valid {s : State} (herr : s.err = false) (hvalid : s.valid = true) (hcause : s.cause = 0)
    (hres : resultLegal { r := s.r, q := s.q, f := s.f, path := s.path }) : coreInvariant s := by
  obtain ⟨hpath, hshape⟩ := hres
  exact ⟨⟨fun _ => ⟨hcause, hpath⟩, by simp [herr]⟩, by simp [noResultIsZero, hvalid], fun _ => hshape⟩

/-- In the fault state the invariant asks for a cause and for `VALID` = 0 (R29). -/
theorem coreInvariant_of_err {s : State} (herr : s.err = true) (hvalid : s.valid = false)
    (hcause : s.cause = causeDivByZero ∨ s.cause = causeIllegalCmd) : coreInvariant s :=
  ⟨⟨by simp [herr], fun _ => ⟨hcause, hvalid⟩⟩, by simp [noResultIsZero, herr], by simp [resultShape, herr]⟩

/-- A completing command keeps the invariant: what it writes is legal (R32). -/
theorem coreInvariant_commit {s : State} {res : Result} (herr : s.err = false) (hres : resultLegal res)
    (h : coreInvariant s) : coreInvariant (commit res s) := by
  obtain ⟨⟨haccepting, _⟩, _⟩ := h
  obtain ⟨hcause, _⟩ := haccepting herr
  exact coreInvariant_of_valid herr rfl hcause hres

/-- The state after a fault entry has the invariant (R174). -/
theorem coreInvariant_of_faultsTo {v : Limb} {s t : State} (h : faultsTo v s t) : coreInvariant t := by
  obtain ⟨rfl, _⟩ | ⟨rfl, _⟩ := h
  · exact coreInvariant_of_err (raise_err ..) (raise_valid ..) (.inl (raise_cause ..))
  · exact coreInvariant_of_err (raise_err ..) (raise_valid ..) (.inr (raise_cause ..))

/-- Settles O43: every field of the reset state is zero. -/
theorem coreInvariantHoldsAtReset : Obligations.CoreInvariantHoldsAtReset := by
  refine ⟨⟨fun _ => ⟨reset_cause, ?_⟩, by simp⟩, fun _ _ => ⟨reset_r, reset_q, reset_f, reset_path⟩, ?_⟩
  · rw [reset_path]
    decide
  · simp [resultShape]

theorem coreInvariant_applyReset (s : State) : coreInvariant (applyReset s) :=
  coreInvariant_of_sameResults ⟨rfl, rfl, rfl, rfl, rfl, rfl, rfl⟩ coreInvariantHoldsAtReset

/-- One host action keeps the invariant (R28, R29, R30, R32). -/
theorem coreInvariant_perform {a : HostAction} {s t : State} (hs : coreInvariant s) (h : perform a s = .next t) :
    coreInvariant t := by
  obtain rfl | ⟨v, _, hfault⟩ | ⟨res, herr, hres, rfl⟩ | hsame := perform_result_cases h
  · exact coreInvariant_applyReset s
  · exact coreInvariant_of_faultsTo hfault
  · exact coreInvariant_commit herr hres hs
  · exact coreInvariant_of_sameResults hsame hs

/-- Settles O42: a step is idle or performs one host action, on a state with the same registers. -/
theorem stepKeepsCoreInvariant : Obligations.StepKeepsCoreInvariant := by
  intro s t hs h
  obtain ⟨_, rfl⟩ | ⟨a, rest, _, hperform⟩ := step_cases h
  · exact hs
  · exact coreInvariant_perform (s := { s with pending := rest }) hs hperform

end Sys2Proof.Machine
end

section
/-!
SUPPORT and PROOFS of the derived statements of 40_carry_primitives.md and 00_scope.md section 4. The exact sum fixes the
pair of AddWithCarry and the exact difference the pair of SubWithCarry, so a chain of limbs or a law has only to
represent the same number (R93, R97, R99); the comparison of limbs is that of their digits (R11).
-/

namespace Sys2Proof.Machine

/-! ### A pair is determined by the number it represents (R90, R95) -/

/-- A value and a carry that represent the exact sum are the pair of AddWithCarry. -/
theorem eq_addWithCarry_of_exact {a b w : Word} {c : Bool}
    (h : w.toNat + c.toNat * 2 ^ 256 = a.toNat + b.toNat) : (w, c) = addWithCarry a b := by
  have hw := w.isLt
  refine Prod.ext (BitVec.eq_of_toNat_eq ?_) ?_
  · rw [addWithCarry_value, ← h, Nat.add_mul_mod_self_right, Nat.mod_eq_of_lt hw]
  · rw [addWithCarry_flag, ← h]
    cases c with
    | false => exact (decide_eq_false (by rw [Bool.toNat_false]; omega)).symm
    | true => exact (decide_eq_true (by rw [Bool.toNat_true]; omega)).symm

/-- A value and a borrow that represent the exact difference are the pair of SubWithCarry. -/
theorem eq_subWithCarry_of_exact {a b w : Word} {c : Bool}
    (h : (w.toNat : Int) - (c.toNat : Int) * 2 ^ 256 = (a.toNat : Int) - b.toNat) : (w, c) = subWithCarry a b := by
  have hw := w.isLt
  refine Prod.ext (BitVec.eq_of_toNat_eq ?_) ?_
  · have hresidue := subWithCarry_residue a b
    dsimp only
    omega
  · rw [subWithCarry_flag]
    cases c with
    | false => exact (decide_eq_false (by rw [Bool.toNat_false] at h; omega)).symm
    | true => exact (decide_eq_true (by rw [Bool.toNat_true] at h; omega)).symm

/-! ### The chains over limbs (R93, R97) -/

/-- One step of the carry chain: the limb and the carry-out represent the sum of the limbs and the carry-in. -/
theorem addLimb_exact (a b : Limb) (c : Bool) :
    (addLimb a b c).1.toNat + (addLimb a b c).2.toNat * 2 ^ 64 = a.toNat + b.toNat + c.toNat := by
  have ha := a.isLt
  have hb := b.isLt
  have hc := c.toNat_le
  simp only [addLimb, BitVec.toNat_ofNat]
  by_cases hcarry : 2 ^ 64 ≤ a.toNat + b.toNat + c.toNat
  · simp only [hcarry, decide_true, Bool.toNat_true]; omega
  · simp only [hcarry, decide_false, Bool.toNat_false]; omega

/-- One step of the borrow chain: the limb less the borrow-out represents the difference of the limbs and the borrow-in. -/
theorem subLimb_exact (a b : Limb) (w : Bool) :
    ((subLimb a b w).1.toNat : Int) - ((subLimb a b w).2.toNat : Int) * 2 ^ 64 =
      (a.toNat : Int) - b.toNat - w.toNat := by
  have ha := a.isLt
  have hb := b.isLt
  have hw := w.toNat_le
  simp only [subLimb, BitVec.toNat_ofInt]
  by_cases hborrow : (a.toNat : Int) - b.toNat - w.toNat < 0
  · simp only [hborrow, decide_true, Bool.toNat_true]; omega
  · simp only [hborrow, decide_false, Bool.toNat_false]; omega

/-- Settles O9: the four steps of the chain telescope to the exact sum. -/
theorem carryChainEqualsSum : Obligations.CarryChainEqualsSum := by
  intro a b
  refine eq_addWithCarry_of_exact ?_
  rw [wordOfLimbs_toNat, word_toNat_eq_limbs a, word_toNat_eq_limbs b]
  have h0 := addLimb_exact (limb a 0) (limb b 0) false
  generalize addLimb (limb a 0) (limb b 0) false = t0 at *
  have h1 := addLimb_exact (limb a 1) (limb b 1) t0.2
  generalize addLimb (limb a 1) (limb b 1) t0.2 = t1 at *
  have h2 := addLimb_exact (limb a 2) (limb b 2) t1.2
  generalize addLimb (limb a 2) (limb b 2) t1.2 = t2 at *
  have h3 := addLimb_exact (limb a 3) (limb b 3) t2.2
  rw [Bool.toNat_false] at h0
  omega

/-- Settles O10: the four steps of the chain telescope to the exact difference. -/
theorem borrowChainEqualsDifference : Obligations.BorrowChainEqualsDifference := by
  intro a b
  refine eq_subWithCarry_of_exact ?_
  rw [wordOfLimbs_toNat, word_toNat_eq_limbs a, word_toNat_eq_limbs b]
  have h0 := subLimb_exact (limb a 0) (limb b 0) false
  generalize subLimb (limb a 0) (limb b 0) false = t0 at *
  have h1 := subLimb_exact (limb a 1) (limb b 1) t0.2
  generalize subLimb (limb a 1) (limb b 1) t0.2 = t1 at *
  have h2 := subLimb_exact (limb a 2) (limb b 2) t1.2
  generalize subLimb (limb a 2) (limb b 2) t1.2 = t2 at *
  have h3 := subLimb_exact (limb a 3) (limb b 3) t2.2
  rw [Bool.toNat_false] at h0
  omega

/-! ### The comparison (R11) -/

/-- Settles O11: the most significant limbs that differ decide; the limbs below them cannot make up one unit there. -/
theorem limbComparisonIsIntegerOrder : Obligations.LimbComparisonIsIntegerOrder := by
  intro a b
  have ha0 := (limb a 0).isLt
  have ha1 := (limb a 1).isLt
  have ha2 := (limb a 2).isLt
  have hb0 := (limb b 0).isLt
  have hb1 := (limb b 1).isLt
  have hb2 := (limb b 2).isLt
  rw [word_toNat_eq_limbs a, word_toNat_eq_limbs b]
  simp only [ltLimbs, ne_eq, ← BitVec.toNat_inj]
  split
  · rw [decide_eq_true_iff]; omega
  split
  · rw [decide_eq_true_iff]; omega
  split
  · rw [decide_eq_true_iff]; omega
  split
  · rw [decide_eq_true_iff]; omega
  · simp only [Bool.false_eq_true, false_iff]; omega

/-! ### The laws (R99) -/

theorem addWithCarry_comm (a b : Word) : addWithCarry a b = addWithCarry b a :=
  eq_addWithCarry_of_exact ((addWithCarry_exact a b).trans (Nat.add_comm ..))

/-- Subtraction undoes addition, and the borrow is the carry (R99 law 5). -/
theorem subWithCarry_addWithCarry (a b : Word) :
    subWithCarry (addWithCarry a b).1 b = (a, (addWithCarry a b).2) := by
  have hsum := addWithCarry_exact a b
  exact (eq_subWithCarry_of_exact (by omega)).symm

theorem addWithCarry_zero (a : Word) : addWithCarry a 0 = (a, false) :=
  (eq_addWithCarry_of_exact (by simp)).symm

theorem subWithCarry_zero (a : Word) : subWithCarry a 0 = (a, false) :=
  (eq_subWithCarry_of_exact (by simp)).symm

theorem subWithCarry_self (a : Word) : subWithCarry a a = (0, false) :=
  (eq_subWithCarry_of_exact (by simp)).symm

/-- The negation of `a`, with a borrow unless `a` is zero (R99 law 7). -/
theorem subWithCarry_from_zero (a : Word) :
    (subWithCarry 0 a).1.toNat = (2 ^ 256 - a.toNat) % 2 ^ 256 ∧ ((subWithCarry 0 a).2 = true ↔ a ≠ 0) := by
  constructor
  · rw [subWithCarry_value, BitVec.ofNat_eq_ofNat, BitVec.toNat_zero, Nat.zero_add]
  · rw [subWithCarry_flag_iff, BitVec.ofNat_eq_ofNat, BitVec.toNat_zero]
    exact ⟨fun h ha => by simp [ha] at h, toNat_pos_of_ne_zero⟩

/-- Settles O12: each law by the number that its pair represents. -/
theorem carryLaws : Obligations.CarryLaws :=
  ⟨addWithCarry_comm, subWithCarry_addWithCarry,
    fun a => ⟨addWithCarry_zero a, subWithCarry_zero a, subWithCarry_self a⟩, subWithCarry_from_zero,
    wideSum_addWithCarry⟩

end Sys2Proof.Machine
end

section
/-!
SUPPORT and PROOFS of the derived statements of 41_divrem.md. A pair that meets the division identity with a remainder
below the divisor is the pair of DivRem (R110), so the laws of R119 each name such a pair; the reference division spells
the quotient and leaves the remainder (R117), by the arithmetic of its main loop (R118).
-/

namespace Sys2Proof.Machine

/-! ### The division contract determines the pair (R110) -/

/-- Settles O14: the uniqueness of Euclidean division. -/
theorem divRemIsUnique : Obligations.DivRemIsUnique := by
  intro n d hd q r hidentity hlt
  have hsum : r + d.toNat * q = n.toNat := by rw [hidentity]; ring
  obtain ⟨hq, hr⟩ := (Nat.div_mod_unique (toNat_pos_of_ne_zero hd)).mpr ⟨hsum, hlt⟩
  rw [divRem_quotient, divRem_remainder]
  exact ⟨hq.symm, hr.symm⟩

/-- The same, for a quotient and a remainder that are values of their width. -/
theorem divRem_eq_of_identity {n q : Wide} {d r : Word} (hd : d ≠ 0)
    (hidentity : n.toNat = q.toNat * d.toNat + r.toNat) (hlt : r.toNat < d.toNat) : divRem n d hd = (q, r) := by
  obtain ⟨hq, hr⟩ := divRemIsUnique n d hd _ _ hidentity hlt
  exact Prod.ext (BitVec.eq_of_toNat_eq hq.symm) (BitVec.eq_of_toNat_eq hr.symm)

/-! ### The width of the quotient (R113) -/

/-- The top limb of the quotient is the quotient of the dividend's top limb. -/
theorem limb_four_quotient (s : State) (hm : s.m ≠ 0) :
    (limb (divRem (dividend s) s.m hm).1 4).toNat = s.e.toNat / s.m.toNat := by
  have hx := s.x.isLt
  have htop : (s.e.toNat * 2 ^ 256 + s.x.toNat) / 2 ^ 256 = s.e.toNat := by omega
  rw [limb_toNat, divRem_quotient, dividend_toNat, Nat.div_right_comm, htop]
  exact Nat.mod_eq_of_lt ((Nat.div_le_self ..).trans_lt s.e.isLt)

/-- Settles O16: the top limb of the quotient is `E / M`. -/
theorem quotientWidthBounds : Obligations.QuotientWidthBounds := by
  refine fun s herr hm => ⟨_, exec_divrem_ready herr hm, fun hlt => BitVec.eq_of_toNat_eq ?_, fun hle => ?_⟩
  · rw [commit_q, limb_four_quotient, Nat.div_eq_of_lt hlt]
    rfl
  · rw [commit_q, limb_four_quotient]
    exact (Nat.div_le_self ..).trans hle

/-! ### The laws (R115, R119) -/

/-- A dividend below the divisor is its own remainder. -/
theorem divRem_of_lt {v d : Word} (hd : d ≠ 0) (hlt : v.toNat < d.toNat) : divRem (wideOfWord v) d hd = (0, v) := by
  refine divRem_eq_of_identity hd ?_ hlt
  simp only [wideOfWord_toNat, BitVec.ofNat_eq_ofNat, BitVec.toNat_zero, Nat.zero_mul, Nat.zero_add]

/-- Settles O17: a remainder is below the divisor. -/
theorem reductionIsIdempotent : Obligations.ReductionIsIdempotent :=
  ⟨fun _ _ hd => divRem_of_lt hd, fun n d hd => divRem_of_lt hd (divRem_remainder_lt n d hd)⟩

theorem divRem_one (n : Wide) (hone : (1 : Word) ≠ 0) : divRem n 1 hone = (n, 0) :=
  divRem_eq_of_identity hone (by simp) (by simp)

theorem divRem_zero {d : Word} (hd : d ≠ 0) : divRem 0 d hd = (0, 0) := by
  refine divRem_eq_of_identity hd ?_ (toNat_pos_of_ne_zero hd)
  simp only [BitVec.ofNat_eq_ofNat, BitVec.toNat_zero, Nat.zero_mul, Nat.add_zero]

theorem divRem_self {d : Word} (hd : d ≠ 0) : divRem (wideOfWord d) d hd = (1, 0) := by
  refine divRem_eq_of_identity hd ?_ (toNat_pos_of_ne_zero hd)
  simp only [wideOfWord_toNat, BitVec.ofNat_eq_ofNat, BitVec.toNat_zero, BitVec.toNat_one (show 0 < 320 by decide),
    Nat.one_mul, Nat.add_zero]

theorem divRem_remainder_eq_zero_iff (n : Wide) (d : Word) (hd : d ≠ 0) :
    (divRem n d hd).2 = 0 ↔ d.toNat ∣ n.toNat := by
  rw [← BitVec.toNat_inj, divRem_remainder, Nat.dvd_iff_mod_eq_zero]
  rfl

/-- Division by a power of two is a shift and a mask (R119 law 8). -/
theorem divRem_two_pow (n : Wide) {k : Nat} (hk : k ≤ 255) (hd : BitVec.ofNat 256 (2 ^ k) ≠ 0) :
    (divRem n (BitVec.ofNat 256 (2 ^ k)) hd).1 = n >>> k ∧
      (divRem n (BitVec.ofNat 256 (2 ^ k)) hd).2.toNat = n.toNat % 2 ^ k := by
  have hpow : (BitVec.ofNat 256 (2 ^ k)).toNat = 2 ^ k := by
    rw [BitVec.toNat_ofNat, Nat.mod_eq_of_lt (Nat.pow_lt_pow_right (by decide) (by omega))]
  refine ⟨BitVec.eq_of_toNat_eq ?_, by rw [divRem_remainder, hpow]⟩
  rw [divRem_quotient, hpow, BitVec.toNat_ushiftRight, Nat.shiftRight_eq_div_pow]

/-- A dividend one divisor larger has a quotient one larger and the same remainder (R119 law 9). -/
theorem divRem_add_divisor {n n' : Wide} {d : Word} (hd : d ≠ 0) (h : n'.toNat = n.toNat + d.toNat) :
    (divRem n' d hd).1.toNat = (divRem n d hd).1.toNat + 1 ∧ (divRem n' d hd).2 = (divRem n d hd).2 := by
  refine ⟨?_, BitVec.eq_of_toNat_eq ?_⟩
  · rw [divRem_quotient, divRem_quotient, h, Nat.add_div_right _ (toNat_pos_of_ne_zero hd)]
  · rw [divRem_remainder, divRem_remainder, h, Nat.add_mod_right]

/-- Settles O18: the laws one by one. -/
theorem divisionLaws : Obligations.DivisionLaws :=
  ⟨fun n => divRem_one n (by decide), fun _ hd => ⟨divRem_zero hd, divRem_self hd⟩, divRem_remainder_eq_zero_iff,
    fun n _ => divRem_two_pow n, fun _ _ _ hd => divRem_add_divisor hd⟩

/-! ### The reference division (R116, R117, R118) -/

/-- The shifted dividend leaves the main loop room: it is below the divisor times the weight of the quotient limbs to come
(R117, phase 1). -/
theorem shifted_dividend_lt (n : Wide) {d : Word} (hd : d ≠ 0) :
    n.toNat * 2 ^ divShift d.toNat < d.toNat * 2 ^ divShift d.toNat * 2 ^ (64 * (6 - divLength d.toNat)) := by
  have hn := n.isLt
  obtain ⟨hk, -, htop, hne⟩ := topNonzeroLimb_spec d.toNat (toNat_pos_of_ne_zero hd).ne' d.isLt
  have hlow : 2 ^ (64 * topNonzeroLimb d.toNat) ≤ d.toNat := by
    by_contra hcon
    exact hne (htop.symm.trans (Nat.div_eq_of_lt (Nat.lt_of_not_le hcon)))
  rw [Nat.mul_right_comm, divLength]
  refine Nat.mul_lt_mul_of_pos_right ?_ (by positivity)
  calc n.toNat < 2 ^ 320 := by omega
    _ = 2 ^ (64 * topNonzeroLimb d.toNat) * 2 ^ (64 * (6 - (topNonzeroLimb d.toNat + 1))) := by
        rw [← Nat.pow_add]; congr 1; omega
    _ ≤ d.toNat * 2 ^ (64 * (6 - (topNonzeroLimb d.toNat + 1))) := Nat.mul_le_mul_right _ hlow

/-- The steps of the reference division spell the quotient, leave the shifted remainder, number 6 less the divisor's
length, and are each sound (R117, R118). -/
theorem divSteps_spec (n : Wide) {d : Word} (hd : d ≠ 0) :
    quotientOf (divSteps n.toNat d.toNat) = n.toNat / d.toNat ∧
    restOf (n.toNat * 2 ^ divShift d.toNat) (divSteps n.toNat d.toNat) =
      n.toNat % d.toNat * 2 ^ divShift d.toNat ∧
    (divSteps n.toNat d.toNat).length = 6 - divLength d.toNat ∧
    ∀ st ∈ divSteps n.toNat d.toNat, st.Sound := by
  obtain ⟨hfit, hnorm, -⟩ := divShift_spec d.toNat (toNat_pos_of_ne_zero hd).ne' d.isLt
  obtain ⟨hquot, hrest, hlength, hsound⟩ := divLoop_spec _ _ _ _ 0 hfit hnorm (shifted_dividend_lt n hd)
  rw [Nat.zero_mul, Nat.zero_add, Nat.mul_div_mul_right _ _ (by positivity)] at hquot
  rw [Nat.mul_mod_mul_right] at hrest
  exact ⟨hquot, hrest, hlength, hsound⟩

/-- Settles O19: the steps' quotient is that of DivRem, and shifting back the rest gives its remainder. -/
theorem divisionAlgorithmMeetsContract : Obligations.DivisionAlgorithmMeetsContract := by
  intro n d hd
  obtain ⟨hquot, hrest, -⟩ := divSteps_spec n hd
  have hpos := toNat_pos_of_ne_zero hd
  obtain ⟨hshifted, -⟩ := divShift_spec d.toNat hpos.ne' d.isLt
  have hfit : n.toNat % d.toNat * 2 ^ divShift d.toNat < 2 ^ (64 * divLength d.toNat) :=
    (Nat.mul_le_mul_right _ (Nat.mod_lt _ hpos).le).trans_lt hshifted
  simp only [divRemAlg, divRem, hquot, hrest, Nat.mod_eq_of_lt hfit]
  rw [Nat.mul_div_cancel _ (by positivity)]

/-- Settles O20: what the soundness of every step says of its digit and its corrections. -/
theorem estimateCorrectionBound : Obligations.EstimateCorrectionBound := by
  intro n d hd
  obtain ⟨-, -, hlength, hsound⟩ := divSteps_spec n hd
  refine ⟨hlength, fun st hst => ?_⟩
  obtain ⟨hdigit, hfirst, hcorrections⟩ := hsound st hst
  exact ⟨hdigit, by omega, hfirst, by omega⟩

end Sys2Proof.Machine
end

section
/-!
SUPPORT and PROOFS of the statements on outcomes and frames. What presenting a command leaves (R14, R21), what a step can
do to the operand registers (R21, R22), that every step answers (R197), and that a command's results are a function of
the registers it reads (R32).
-/

namespace Sys2Proof.Machine

/-! ### What a command leaves unchanged (R14, R21) -/

theorem sameOperands_refl (s : State) : sameOperands s s := ⟨rfl, rfl, rfl, rfl⟩

theorem sameHostSide_refl (s : State) : sameHostSide s s := ⟨rfl, rfl, rfl⟩

theorem sameOperands_commit (res : Result) (s : State) : sameOperands s (commit res s) :=
  ⟨commit_x .., commit_e .., commit_y .., commit_m ..⟩

theorem sameHostSide_commit (res : Result) (s : State) : sameHostSide s (commit res s) :=
  ⟨commit_pending .., commit_yields .., commit_stream ..⟩

/-- Settles O39: ignored, faulting or completing, a command leaves the operands and the host's side. -/
theorem commandsNeverWriteOperands : Obligations.CommandsNeverWriteOperands := by
  intro i s
  obtain ⟨_, hex⟩ | ⟨_, _, _, hex⟩ | ⟨_, res, _, hex⟩ := exec_cases i s
  · exact ⟨s, hex, sameOperands_refl s, sameHostSide_refl s⟩
  · exact ⟨_, hex, sameOperands_raise .., sameHostSide_raise ..⟩
  · exact ⟨_, hex, sameOperands_commit .., sameHostSide_commit ..⟩

/-- Every datum presented to `CMD` is answered by a next state with the same operands and host's side (R14, R174). -/
theorem command_frame (v : Limb) (s : State) :
    ∃ t, command v s = .next t ∧ sameOperands s t ∧ sameHostSide s t := by
  cases hd : decode v with
  | ok i => rw [command_legal hd]; exact commandsNeverWriteOperands i s
  | error e =>
    rw [command_illegal hd, ifAccepting]
    split
    · exact ⟨s, rfl, sameOperands_refl s, sameHostSide_refl s⟩
    · exact ⟨_, rfl, sameOperands_raise .., sameHostSide_raise ..⟩

theorem valid_of_faultsTo {v : Limb} {s t : State} (h : faultsTo v s t) : t.valid = false := by
  obtain ⟨rfl, _⟩ | ⟨rfl, _⟩ := h
  · exact raise_valid ..
  · exact raise_valid ..

/-- Settles O31: the three cases of a presented datum. -/
theorem commandHasOneOfThreeOutcomes : Obligations.CommandHasOneOfThreeOutcomes := by
  intro s v
  obtain ⟨t, h, _⟩ := command_frame v s
  refine ⟨t, h, ?_⟩
  obtain ⟨herr, ht⟩ | ⟨herr, hfault⟩ | ⟨_, res, _, ⟨herr, _⟩, _, rfl⟩ := command_cases h
  · exact .inr (.inr ⟨herr, ht⟩)
  · exact .inr (.inl ⟨herr, err_of_faultsTo hfault, valid_of_faultsTo hfault⟩)
  · exact .inl ⟨herr, (commit_err s res).trans herr, commit_valid ..⟩

/-! ### Every step answers (R197) -/

/-- Every action but a second host's access is answered by a next state. -/
theorem perform_answers {a : HostAction} (ha : a ≠ .secondHost) (s : State) : ∃ t, perform a s = .next t := by
  cases a with
  | wrl addr v =>
    by_cases hc : addr = cmdAddr
    · obtain ⟨t, h, _⟩ := command_frame v s
      exact ⟨t, by rw [hc, perform_command, h]⟩
    · exact ⟨_, perform_write hc v s⟩
  | rdl addr => exact ⟨_, rfl⟩
  | reset => exact ⟨_, rfl⟩
  | secondHost => exact absurd rfl ha

/-- Settles O37: a step is idle or performs one action. -/
theorem everyStepAnswers : Obligations.EveryStepAnswers := by
  intro s hno
  cases hp : s.pending with
  | nil => exact ⟨s, step_idle hp⟩
  | cons a rest =>
    rw [step_action hp]
    exact perform_answers (fun ha => hno rest (by rw [hp, ha])) _

/-! ### What a step can do to the operand registers (R21, R22) -/

/-- Between the two states at most the operand register that the address names has changed (R51). -/
def operandWrite (addr : PortAddr) (s t : State) : Prop :=
  (addr.toNat < 0x04 ∧ t.e = s.e ∧ t.y = s.y ∧ t.m = s.m) ∨
  (addr = 0x04 ∧ t.x = s.x ∧ t.y = s.y ∧ t.m = s.m) ∨
  (0x08 ≤ addr.toNat ∧ addr.toNat ≤ 0x0B ∧ t.x = s.x ∧ t.e = s.e ∧ t.m = s.m) ∨
  (0x10 ≤ addr.toNat ∧ addr.toNat ≤ 0x13 ∧ t.x = s.x ∧ t.e = s.e ∧ t.y = s.y)

/-- Which addresses name which operand register; of a location that is none nothing is asked (R51). -/
def addressOf : Location → Nat → Bool
  | .x _, a => a < 0x04
  | .e, a => a = 0x04
  | .y _, a => 0x08 ≤ a ∧ a ≤ 0x0B
  | .m _, a => 0x10 ≤ a ∧ a ≤ 0x13
  | _, _ => true

theorem addressOf_locate : ∀ addr : PortAddr, addressOf (locate addr) addr.toNat = true := by decide

/-- A write to a location other than `CMD` changes at most the operand register that its address names (R51, R57). -/
theorem operandWrite_writeLocation (addr : PortAddr) (v : Limb) (s : State) :
    sameOperands s (writeLocation (locate addr) v s) ∨ operandWrite addr s (writeLocation (locate addr) v s) := by
  have haddr := addressOf_locate addr
  cases hl : locate addr with rw [hl] at haddr
  | x i => exact .inr (.inl ⟨of_decide_eq_true haddr, rfl, rfl, rfl⟩)
  | e => exact .inr (.inr (.inl ⟨BitVec.eq_of_toNat_eq (of_decide_eq_true haddr), rfl, rfl, rfl⟩))
  | y i =>
    obtain ⟨hlo, hhi⟩ := of_decide_eq_true haddr
    exact .inr (.inr (.inr (.inl ⟨hlo, hhi, rfl, rfl, rfl⟩)))
  | m i =>
    obtain ⟨hlo, hhi⟩ := of_decide_eq_true haddr
    exact .inr (.inr (.inr (.inr ⟨hlo, hhi, rfl, rfl, rfl⟩)))
  | _ => exact .inl (sameOperands_refl s)

/-- One host action that is not a reset leaves the operand registers, or is a write to one of them (R21). -/
theorem perform_operand_cases {a : HostAction} {s t : State} (h : perform a s = .next t) (ha : a ≠ .reset) :
    sameOperands s t ∨ ∃ addr v, a = .wrl addr v ∧ operandWrite addr s t := by
  cases a with
  | wrl addr v =>
    by_cases hc : addr = cmdAddr
    · obtain ⟨t', h', hsame, _⟩ := command_frame v s
      rw [hc, perform_command, h'] at h
      injection h with h
      exact .inl (h ▸ hsame)
    · rw [perform_write hc, ifAccepting] at h
      injection h with h
      subst h
      split
      · exact .inl (sameOperands_refl s)
      · exact (operandWrite_writeLocation addr v s).imp_right fun hwrite => ⟨addr, v, rfl, hwrite⟩
  | rdl addr =>
    injection h with h
    obtain ⟨_, _, hread⟩ := portRead_registers addr s
    subst h
    exact .inl (hread ▸ sameOperands_refl s)
  | reset => exact absurd rfl ha
  | secondHost => cases h

/-- One step that is not a reset, the same. -/
theorem step_operand_cases {s t : State} (h : step s = .next t) (hno : ∀ rest, s.pending ≠ .reset :: rest) :
    sameOperands s t ∨ ∃ addr v rest, s.pending = .wrl addr v :: rest ∧ operandWrite addr s t := by
  obtain ⟨_, rfl⟩ | ⟨a, rest, hp, hperform⟩ := step_cases h
  · exact .inl (sameOperands_refl t)
  · obtain hsame | ⟨addr, v, rfl, hwrite⟩ := perform_operand_cases hperform (fun ha => hno rest (by rw [hp, ha]))
    · exact .inl hsame
    · exact .inr ⟨addr, v, rest, hp, hwrite⟩

/-- Settles O40: a step writes at most the one register that the address of its write names. -/
theorem operandsChangeOnlyByHostOrReset : Obligations.OperandsChangeOnlyByHostOrReset := by
  intro s t h hno
  obtain ⟨hx, he, hy, hm⟩ | ⟨addr, v, rest, hp, hwrite⟩ := step_operand_cases h hno
  · exact ⟨fun _ => hx, fun _ => he, fun _ => hy, fun _ => hm⟩
  obtain ⟨haddr, he, hy, hm⟩ | ⟨haddr, hx, hy, hm⟩ | ⟨hlo, hhi, hx, he, hm⟩ | ⟨hlo, hhi, hx, he, hy⟩ := hwrite
  · exact ⟨fun hout => absurd (hout addr v rest hp) (by omega), fun _ => he, fun _ => hy, fun _ => hm⟩
  · exact ⟨fun _ => hx, fun hout => absurd haddr (hout addr v rest hp), fun _ => hy, fun _ => hm⟩
  · exact ⟨fun _ => hx, fun _ => he, fun hout => absurd (hout addr v rest hp) (by omega), fun _ => hm⟩
  · exact ⟨fun _ => hx, fun _ => he, fun _ => hy, fun hout => absurd (hout addr v rest hp) (by omega)⟩

/-! ### The results of a command (R32) -/

/-- A command is `ADDC`, `SUBC` or `DIVREM`, or it runs a strategy (R73, R74). -/
theorem instr_cases (i : Instr) : i = .addc ∨ i = .subc ∨ i = .divrem ∨ ∃ st, strategyOf i = some st := by
  cases i <;> simp [strategyOf]

/-- A command that runs a strategy reads `X`, `Y` and `M` (R130). -/
theorem readsAgree_of_strategyOf {i : Instr} {st : Strategy} {s s' : State} (h : strategyOf i = some st)
    (hagree : readsAgree i s s') : s.x = s'.x ∧ s.y = s'.y ∧ s.m = s'.m := by
  cases i with
  | addc | subc | divrem => cases h
  | _ => exact hagree

/-- A command that completes in two states that agree in the registers it reads writes the same results in both. -/
theorem exec_commits_same {i : Instr} {s s' : State} (hready : ready i s) (herr' : s'.err = false)
    (hagree : readsAgree i s s') :
    ∃ res, exec i s = .next (commit res s) ∧ exec i s' = .next (commit res s') := by
  obtain ⟨herr, hnonzero⟩ := hready
  obtain rfl | rfl | rfl | ⟨st, hst⟩ := instr_cases i
  · obtain ⟨hx, hy⟩ := hagree
    exact ⟨_, exec_addc_accepting herr, by rw [hx, hy, exec_addc_accepting herr']⟩
  · obtain ⟨hx, hy⟩ := hagree
    exact ⟨_, exec_subc_accepting herr, by rw [hx, hy, exec_subc_accepting herr']⟩
  · obtain ⟨he, hx, hm⟩ := hagree
    refine ⟨_, exec_divrem_ready herr (hnonzero rfl), ?_⟩
    simp only [exec_divrem_ready herr' (hm ▸ hnonzero rfl), dividend, he, hx, hm]
  · obtain ⟨hx, hy, hm⟩ := readsAgree_of_strategyOf hst hagree
    have hne := hnonzero (readsModulus_of_strategyOf hst)
    refine ⟨_, exec_strategy_ready hst herr hne, ?_⟩
    simp only [exec_strategy_ready hst herr' (hm ▸ hne), hx, hy, hm]

/-- Settles O41: the two states get the same results committed. -/
theorem resultsDependOnOperandsOnly : Obligations.ResultsDependOnOperandsOnly := by
  intro i s s' hready herr' hagree
  obtain ⟨res, hex, hex'⟩ := exec_commits_same hready herr' hagree
  exact ⟨_, _, hex, hex', rfl, rfl, rfl, rfl, rfl⟩

/-! ### The host's duty (R194, R196) -/

/-- A datum that the host may present does not fault. -/
theorem not_faultsTo_of_obeys {v : Limb} {s t : State} (hobeys : hostObeys s (.wrl cmdAddr v)) :
    ¬ faultsTo v s t := by
  obtain ⟨i, hd, hnonzero⟩ := hobeys rfl
  rintro (⟨_, hm, j, hj, hread⟩ | ⟨_, hillegal⟩)
  · obtain rfl : i = j := Except.ok.inj (hd.symm.trans hj)
    exact hnonzero hread hm
  · rw [(exists_decode_eq_ok_iff v).mp ⟨i, hd⟩] at hillegal
    cases hillegal

/-- Settles O44: of the three things a step can do to `ERR`, an obedient host rules out the fault. -/
theorem obedientHostNeverFaults : Obligations.ObedientHostNeverFaults := by
  intro s t herr hobeys h
  obtain ⟨rest, _, rfl⟩ | ⟨v, rest, hp, _, hfault⟩ | ⟨_, hsame, _⟩ := step_fault_cases h
  · exact applyReset_err _
  · exact absurd hfault (not_faultsTo_of_obeys (hobeys _ rest hp))
  · exact hsame.trans herr

/-! ### The threshold condition (R138, R141) -/

/-- Settles O30: the top limbs bound the operands below twice the modulus, where one subtraction reduces them. -/
theorem thresholdConditionBoundsOperands : Obligations.ThresholdConditionBoundsOperands := by
  intro x y m h
  obtain ⟨htop, hxtop, hytop⟩ := (thresholdHolds_iff x y m).mp h
  have hx := lt_two_mul_of_top_le htop hxtop
  have hy := lt_two_mul_of_top_le htop hytop
  exact ⟨by omega, hx, hy, preAdjust_toNat x m hx, preAdjust_toNat y m hy⟩

end Sys2Proof.Machine
end

section
/-!
SUPPORT and PROOFS of the statements on the register port and on host scripts. A read outside the fault state answers its
location (R51, R57) and a write changes one limb (R51); a script of reads, or of writes to locations other than `CMD`, is
run by induction on its accesses (R80, R82).
-/

namespace Sys2Proof.Machine

/-! ### One access (R51, R52, R57) -/

theorem locate_y_add {addr : PortAddr} {i : Nat} (hi : i < 4) (haddr : addr.toNat = 0x08 + i) : locate addr = .y i := by
  rw [locate_y addr (by omega) (by omega), haddr, Nat.add_sub_cancel_left]

theorem locate_m_add {addr : PortAddr} {i : Nat} (hi : i < 4) (haddr : addr.toNat = 0x10 + i) : locate addr = .m i := by
  rw [locate_m addr (by omega) (by omega), haddr, Nat.add_sub_cancel_left]

theorem locate_r_add {addr : PortAddr} {i : Nat} (hi : i < 4) (haddr : addr.toNat = 0x20 + i) : locate addr = .r i := by
  rw [locate_r addr (by omega) (by omega), haddr, Nat.add_sub_cancel_left]

theorem locate_q_add {addr : PortAddr} {i : Nat} (hi : i < 5) (haddr : addr.toNat = 0x28 + i) : locate addr = .q i := by
  rw [locate_q addr (by omega) (by omega), haddr, Nat.add_sub_cancel_left]

/-- Outside the fault state a read of `R` or `Q` answers the limb it holds (R175). -/
theorem readResult_accepting {s : State} (v : Limb) (herr : s.err = false) : readResult v s = (v, s) := by
  simp [readResult, herr]

/-- Outside the fault state a read of `STATUS` answers its stored fields (R27). -/
theorem readStatus_accepting {s : State} (herr : s.err = false) :
    readStatus s = (statusWord s.path s.cause s.err s.f s.valid, s) := by
  simp [readStatus, herr]

/-- Settles O50: the read answers its location, and the address names that location. -/
theorem readsFollowTheAddressMap : Obligations.ReadsFollowTheAddressMap := by
  intro s addr rest hp herr
  refine ⟨_, step_read hp herr, ?x, ?e, ?y, ?m, ?cmd, ?r, ?q, ?reserved⟩
  case x => rintro i hi rfl; rw [locate_x addr hi, readLocation, limb]
  case e => intro haddr; rw [locate_e addr haddr, readLocation]
  case y => intro i hi haddr; rw [locate_y_add hi haddr, readLocation, limb]
  case m => intro i hi haddr; rw [locate_m_add hi haddr, readLocation, limb]
  case cmd => intro haddr; rw [locate_cmd addr haddr, readLocation]
  case r => intro i hi haddr; rw [locate_r_add hi haddr, readLocation, readResult_accepting _ herr, limb]
  case q => intro i hi haddr; rw [locate_q_add hi haddr, readLocation, readResult_accepting _ herr, limb]
  case reserved => intro haddr; rw [locate_reserved addr haddr, readLocation]

/-- Settles O51: the fields of the STATUS limb, of the stored values outside the fault state; a write to `STATUS` is
ignored. -/
theorem statusReadShowsEveryField : Obligations.StatusReadShowsEveryField := by
  intro s rest
  refine ⟨fun hp herr => ?accepting, fun hp => ?any, fun v hp => step_write_ignored hp rfl nofun fun _ => rfl⟩
  case accepting =>
    obtain ⟨hvalid, hf, herr', _, hcause, hpath, _⟩ := statusWord_fields s.path s.cause s.err s.f s.valid
    have hread : (readLocation (locate 0x19) s).1 = statusWord s.path s.cause s.err s.f s.valid := by
      rw [locate_status 0x19 rfl, readLocation, readStatus_accepting herr]
    exact ⟨_, step_read hp herr, by rw [hread]; exact ⟨hvalid, hf, herr', hcause, hpath⟩⟩
  case any =>
    obtain ⟨k, hstep⟩ := step_read_any hp
    obtain ⟨p, f, _, hstatus⟩ := readStatus_eq { s with pending := rest }
    obtain ⟨_, _, _, hbit, _, _, hupper⟩ := statusWord_fields p s.cause s.err f s.valid
    refine ⟨_, _, hstep, rfl, ⟨rfl, rfl, rfl, rfl⟩, ⟨rfl, rfl, rfl, rfl, rfl, rfl, rfl⟩, ?_⟩
    rw [locate_status 0x19 rfl, readLocation, hstatus]
    exact ⟨hbit, hupper⟩

/-- One step with a write to a known location other than `CMD` in front, outside the fault state (R52). -/
theorem step_write_at {s : State} {addr : PortAddr} {v : Limb} {rest : List HostAction} {l : Location}
    (hp : s.pending = .wrl addr v :: rest) (herr : s.err = false) (hl : locate addr = l) (hc : l ≠ .cmd) :
    step s = .next (writeLocation l v { s with pending := rest }) := by
  subst hl
  exact step_write hp herr hc

/-- Settles O52: the address names a limb of the register, and `setLimb` replaces that limb. -/
theorem writesChangeOneLimb : Obligations.WritesChangeOneLimb := by
  intro s addr v rest hp herr
  refine ⟨?x, ?e, ?y, ?m⟩
  case x =>
    rintro i hi rfl
    exact ⟨_, step_write_at hp herr (locate_x addr hi) nofun, fun j _ => limb_setLimb s.x _ v hi j⟩
  case e => exact fun haddr => step_write_at hp herr (locate_e addr haddr) nofun
  case y =>
    intro i hi haddr
    exact ⟨_, step_write_at hp herr (locate_y_add hi haddr) nofun, fun j _ => limb_setLimb s.y i v hi j⟩
  case m =>
    intro i hi haddr
    exact ⟨_, step_write_at hp herr (locate_m_add hi haddr) nofun, fun j _ => limb_setLimb s.m i v hi j⟩

/-! ### A script of reads (R82) -/

/-- The limbs that reads of these addresses answer in `s`, newest first. -/
def limbsRead (s : State) (addrs : List PortAddr) : List Limb :=
  (addrs.map fun addr => (readLocation (locate addr) s).1).reverse

theorem limbsRead_cons (s : State) (addr : PortAddr) (addrs : List PortAddr) :
    limbsRead s (addr :: addrs) = limbsRead s addrs ++ [(readLocation (locate addr) s).1] := by
  rw [limbsRead, List.map_cons, List.reverse_cons, limbsRead]

/-- Outside the fault state what reads answer does not depend on the host's side of the model. -/
theorem limbsRead_hostSide {s : State} (herr : s.err = false) (p : List HostAction) (y : List Limb)
    (addrs : List PortAddr) : limbsRead { s with pending := p, yields := y } addrs = limbsRead s addrs := by
  simp only [limbsRead, readLocation_hostSide herr]

/-- Outside the fault state a script of reads yields the limbs of its locations and changes nothing else (R57, R82). -/
theorem run_reads (addrs : List PortAddr) {s : State} {rest : List HostAction} (herr : s.err = false)
    (hp : s.pending = addrs.map .rdl ++ rest) :
    run addrs.length s = .next { s with pending := rest, yields := limbsRead s addrs ++ s.yields } := by
  induction addrs generalizing s with
  | nil => rw [List.length_nil, run_zero, ← (show s.pending = rest from hp)]; rfl
  | cons addr addrs ih =>
    rw [List.map_cons, List.cons_append] at hp
    rw [List.length_cons, run_next _ (step_read hp herr), ih (by exact herr) rfl, limbsRead_hostSide herr,
      limbsRead_cons, List.append_assoc, List.singleton_append]

/-- Settles O55: a script of two reads of one address. -/
theorem readsAreIdempotent : Obligations.ReadsAreIdempotent :=
  fun _ addr _ hp herr => ⟨_, run_reads [addr, addr] herr hp⟩

/-- The four limbs of `R`, read in ascending order, are the value of `R` (R82). -/
theorem wordOfYields_result {s : State} (herr : s.err = false) (y : List Limb) :
    wordOfYields (limbsRead s [0x20, 0x21, 0x22, 0x23] ++ y) = some s.r := by
  rw [← wordOfLimbs_limb s.r]
  simp [limbsRead, locate_r, readLocation, readResult_accepting _ herr, wordOfYields]

/-- The five limbs of `Q`, read in ascending order, are the value of `Q` (R82). -/
theorem wideOfYields_quotient {s : State} (herr : s.err = false) (y : List Limb) :
    wideOfYields (limbsRead s [0x28, 0x29, 0x2A, 0x2B, 0x2C] ++ y) = some s.q := by
  rw [← wideOfLimbs_limb s.q]
  simp [limbsRead, locate_q, readLocation, readResult_accepting _ herr, wideOfYields]

/-- Settles O58: both scripts are scripts of reads, of the limbs of `R` and of `Q`. -/
theorem getYieldsTheResult : Obligations.GetYieldsTheResult := by
  intro s rest herr
  refine ⟨fun hp => ?_, fun hp => ?_⟩
  · have hvalue := wordOfYields_result herr s.yields
    refine ⟨_, run_reads [0x20, 0x21, 0x22, 0x23] herr hp, hvalue, rfl, ⟨rfl, rfl, rfl, rfl⟩,
      ⟨rfl, rfl, rfl, rfl, rfl, rfl, rfl⟩, fun reg => ?_⟩
    rw [moveScript, hvalue]
  · exact ⟨_, run_reads [0x28, 0x29, 0x2A, 0x2B, 0x2C] herr hp, wideOfYields_quotient herr s.yields, rfl,
      ⟨rfl, rfl, rfl, rfl⟩, ⟨rfl, rfl, rfl, rfl, rfl, rfl, rfl⟩⟩

/-! ### A script of writes (R82) -/

/-- The state after writes of these limbs to these addresses, oldest first, none of them `CMD` (R51). -/
def afterWrites (s : State) (writes : List (PortAddr × Limb)) : State :=
  writes.foldl (fun t w => writeLocation (locate w.1) w.2 t) s

theorem afterWrites_append (s : State) (first second : List (PortAddr × Limb)) :
    afterWrites s (first ++ second) = afterWrites (afterWrites s first) second := List.foldl_append

/-- The writes as host actions. -/
def writeActions (writes : List (PortAddr × Limb)) : List HostAction := writes.map fun w => .wrl w.1 w.2

theorem writeLocation_err (l : Location) (v : Limb) (s : State) : (writeLocation l v s).err = s.err := by
  cases l <;> rfl

/-- A write to a location other than `CMD` neither reads nor writes the host's list. -/
theorem writeLocation_pending (l : Location) (v : Limb) (s : State) (p : List HostAction) :
    writeLocation l v { s with pending := p } = { writeLocation l v s with pending := p } := by
  cases l <;> rfl

/-- One step with a write to a location other than `CMD` in front, outside the fault state, with the host's list apart. -/
theorem step_write_frame {s : State} {addr : PortAddr} {v : Limb} {rest : List HostAction}
    (hp : s.pending = .wrl addr v :: rest) (herr : s.err = false) (hc : locate addr ≠ .cmd) :
    step s = .next { writeLocation (locate addr) v s with pending := rest } := by
  rw [step_write hp herr hc, writeLocation_pending]

/-- Outside the fault state a script of writes to locations other than `CMD` performs them in order (R52, R82). -/
theorem run_writes (writes : List (PortAddr × Limb)) {s : State} {rest : List HostAction} (herr : s.err = false)
    (hcmd : ∀ addr ∈ writes.map Prod.fst, locate addr ≠ .cmd) (hp : s.pending = writeActions writes ++ rest) :
    run writes.length s = .next (afterWrites { s with pending := rest } writes) := by
  induction writes generalizing s with
  | nil => rw [List.length_nil, run_zero, ← (show s.pending = rest from hp)]; rfl
  | cons w writes ih =>
    obtain ⟨hw, hcmd⟩ := List.forall_mem_cons.mp hcmd
    calc run (writes.length + 1) s
        = run writes.length { writeLocation (locate w.1) w.2 s with pending := writeActions writes ++ rest } :=
          run_next _ (step_write_frame hp herr hw)
      _ = .next (afterWrites { writeLocation (locate w.1) w.2 s with pending := rest } writes) :=
          ih ((writeLocation_err ..).trans herr) hcmd rfl
      _ = .next (afterWrites { s with pending := rest } (w :: writes)) := by
          rw [← writeLocation_pending]; rfl

/-- The writes of `SET reg, v` (R82). -/
def setWrites (reg : OperandRegister) (v : Word) : List (PortAddr × Limb) :=
  [(limbAddr (baseAddr reg) 0, limb v 0), (limbAddr (baseAddr reg) 1, limb v 1),
    (limbAddr (baseAddr reg) 2, limb v 2), (limbAddr (baseAddr reg) 3, limb v 3)]

theorem setScript_eq_writeActions (reg : OperandRegister) (v : Word) :
    setScript reg v = writeActions (setWrites reg v) := rfl

/-- No write of `SET` goes to `CMD` (R51). -/
theorem locate_setWrites_ne_cmd (reg : OperandRegister) (v : Word) :
    ∀ addr ∈ (setWrites reg v).map Prod.fst, locate addr ≠ .cmd := by
  show ∀ addr ∈ [limbAddr (baseAddr reg) 0, limbAddr (baseAddr reg) 1, limbAddr (baseAddr reg) 2,
    limbAddr (baseAddr reg) 3], locate addr ≠ .cmd
  cases reg <;> decide

theorem afterWrites_setWrites_x (s : State) (v : Word) : afterWrites s (setWrites .x v) = { s with x := v } :=
  congrArg (fun w => { s with x := w }) (setLimb_all s.x v)

theorem afterWrites_setWrites_y (s : State) (v : Word) : afterWrites s (setWrites .y v) = { s with y := v } :=
  congrArg (fun w => { s with y := w }) (setLimb_all s.y v)

theorem afterWrites_setWrites_m (s : State) (v : Word) : afterWrites s (setWrites .m v) = { s with m := v } :=
  congrArg (fun w => { s with m := w }) (setLimb_all s.m v)

/-- `SET` outside the fault state performs its writes (R82). -/
theorem run_setScript {s : State} {reg : OperandRegister} {v : Word} {rest : List HostAction} (herr : s.err = false)
    (hp : s.pending = setScript reg v ++ rest) :
    run 4 s = .next (afterWrites { s with pending := rest } (setWrites reg v)) :=
  run_writes (setWrites reg v) herr (locate_setWrites_ne_cmd reg v) hp

/-- Settles O56: the four writes of `SET` together replace every limb of its register. -/
theorem setWritesTheWholeRegister : Obligations.SetWritesTheWholeRegister := by
  refine fun s v rest herr => ⟨fun hp => ?_, fun hp => ?_, fun hp => ?_⟩
  · rw [run_setScript herr hp, afterWrites_setWrites_x]
  · rw [run_setScript herr hp, afterWrites_setWrites_y]
  · rw [run_setScript herr hp, afterWrites_setWrites_m]

/-- The writes of `SETN n` (R82). -/
def setDividendWrites (n : Wide) : List (PortAddr × Limb) :=
  setWrites .x (n.extractLsb' 0 256) ++ [(extensionAddr, limb n 4)]

/-- No write of `SETN` goes to `CMD` (R51). -/
theorem locate_setDividendWrites_ne_cmd (n : Wide) :
    ∀ addr ∈ (setDividendWrites n).map Prod.fst, locate addr ≠ .cmd := by
  rw [setDividendWrites, List.map_append, List.forall_mem_append]
  exact ⟨locate_setWrites_ne_cmd .x _, List.forall_mem_singleton.mpr (by decide : locate extensionAddr ≠ .cmd)⟩

theorem afterWrites_setDividendWrites (s : State) (n : Wide) :
    afterWrites s (setDividendWrites n) = { s with x := n.extractLsb' 0 256, e := limb n 4 } := by
  rw [setDividendWrites, afterWrites_append, afterWrites_setWrites_x]
  rfl

/-- A 320-bit value is its top limb above its low 256 bits (R22). -/
theorem wide_limb_four (n : Wide) : wide (limb n 4) (n.extractLsb' 0 256) = n := by
  have hn := n.isLt
  apply BitVec.eq_of_toNat_eq
  rw [wide_toNat, limb_toNat, BitVec.extractLsb'_toNat, Nat.shiftRight_zero]
  omega

/-- Settles O57: the five writes of `SETN` write `X` and `E`, which make up the dividend. -/
theorem setDividendMakesTheDividend : Obligations.SetDividendMakesTheDividend := by
  intro s n rest herr hp
  have hrun := run_writes (setDividendWrites n) herr (locate_setDividendWrites_ne_cmd n) hp
  rw [afterWrites_setDividendWrites] at hrun
  exact ⟨_, hrun, wide_limb_four n, rfl, rfl, rfl, rfl, rfl, rfl, rfl, rfl, rfl, rfl⟩

end Sys2Proof.Machine
end

section
/-!
SUPPORT and PROOFS of the statements on instances, reset and the step. Of a schedule only its own steps reach
each of the instances (R63, R183); a step with each kind of host action in front (R60, R70, R182, R190).
-/

namespace Sys2Proof.Machine

/-! ### Instances (R63, R183) -/

/-- The first step of a schedule, and the rest of it. -/
theorem systemRun_cons {k : Nat} {schedule : List Nat} {sys sys' : System}
    (h : systemRun (k :: schedule) sys = .next sys') :
    ∃ mid, systemStep k sys = .next mid ∧ systemRun schedule mid = .next sys' := by
  rw [systemRun] at h
  split at h
  case h_1 mid hstep => exact ⟨mid, hstep, h⟩
  case h_2 => cases h
  case h_3 => cases h

/-- A step of a system steps the state it drives, in its place (R183). -/
theorem systemStep_same {k : Nat} {sys sys' : System} {s : State} (h : systemStep k sys = .next sys')
    (hs : sys.instances[k]? = some s) : ∃ t, step s = .next t ∧ sys'.instances[k]? = some t := by
  obtain ⟨s', t, hs', hstep, rfl⟩ := systemStep_cases h
  obtain rfl : s' = s := Option.some_inj.mp (hs'.symm.trans hs)
  obtain ⟨hk, _⟩ := List.getElem?_eq_some_iff.mp hs
  exact ⟨t, hstep, List.getElem?_set_self hk⟩

/-- Settles O60, by induction on the schedule: a step at position `k` is one step of that state's run alone, and a step
elsewhere leaves it. -/
theorem interleavingEqualsRunningAlone : Obligations.InterleavingEqualsRunningAlone := by
  intro schedule
  induction schedule with
  | nil =>
    intro sys sys' h k s hs
    injection h with h
    exact ⟨s, h ▸ hs, run_zero s⟩
  | cons j schedule ih =>
    intro sys sys' h k s hs
    obtain ⟨mid, hstep, hrest⟩ := systemRun_cons h
    by_cases hjk : j = k
    · subst hjk
      obtain ⟨t, ht, hmid⟩ := systemStep_same hstep hs
      rw [List.count_cons_self, run_next _ ht]
      exact ih mid sys' hrest j t hmid
    · obtain ⟨_, hothers⟩ := instanceStepLeavesTheOthers sys mid j hstep
      rw [List.count_cons_of_ne hjk]
      exact ih mid sys' hrest k s ((hothers k (Ne.symm hjk)).trans hs)

/-! ### The step (R60, R70, R182) -/

/-- Settles O49: no action is pending. -/
theorem idleCoreHoldsItsState : Obligations.IdleCoreHoldsItsState := fun _ => step_idle

/-- Settles O38: the step performs the access, which is refused. -/
theorem secondHostIsRefused : Obligations.SecondHostIsRefused := by
  intro s rest hp
  rw [step_action hp, perform]

/-- Settles O48: a write to `CMD` presents its datum, and a legal datum runs its command. -/
theorem stepRunsTheDecodedCommand : Obligations.StepRunsTheDecodedCommand := by
  intro s v rest i hp hd
  exact (step_action hp).trans (command_legal hd _)

/-- Settles O46: each word is the encoding of its command. -/
theorem tableWordsDecode : Obligations.TableWordsDecode := by
  simp only [Obligations.TableWordsDecode, decode_eq_ok_iff_eq_encode]
  decide

/-! ### Reset (R37, R190, R193) -/

/-- One step with a reset in front (R190). -/
theorem step_reset {s : State} {rest : List HostAction} (hp : s.pending = .reset :: rest) :
    step s = .next (applyReset { s with pending := rest }) := step_action hp

/-- Settles O2: the fields of the state after the reset action. -/
theorem resetActionClearsEveryRegister : Obligations.ResetActionClearsEveryRegister := fun _ _ hp =>
  ⟨_, step_reset hp, applyReset_x _, applyReset_y _, applyReset_m _, applyReset_e _, applyReset_r _, applyReset_q _,
    applyReset_valid _, applyReset_f _, applyReset_err _, applyReset_cause _, applyReset_path _, applyReset_pending _,
    applyReset_yields _⟩

/-- Settles O3: the command leaves the host's side, and the reset clears the rest. -/
theorem abandonedCommandLeavesNoTrace : Obligations.AbandonedCommandLeavesNoTrace := by
  intro s t v h
  obtain ⟨t', h', _, hhost⟩ := command_frame v s
  obtain rfl : t' = t := Host.Outcome.next.inj (h'.symm.trans h)
  exact ⟨⟨rfl, rfl, rfl, rfl⟩, ⟨rfl, rfl, rfl, rfl, rfl, rfl, rfl⟩, hhost⟩

/-- The two commands that do not divide by `M` (R171). -/
theorem eq_addc_or_subc_of_readsModulus_false {i : Instr} (h : readsModulus i = false) : i = .addc ∨ i = .subc := by
  cases i with
  | addc => exact .inl rfl
  | subc => exact .inr rfl
  | _ => cases h

/-- Settles O4: `M` is zero straight after reset, and so are the operands of `ADDC` and `SUBC`. -/
theorem commandsStraightAfterReset : Obligations.CommandsStraightAfterReset := by
  refine ⟨fun i hread => ⟨_, exec_zero_modulus hread reset_err reset_m, raise_err .., raise_cause ..⟩, fun i hread => ?_⟩
  obtain rfl | rfl := eq_addc_or_subc_of_readsModulus_false hread
  · refine ⟨_, exec_addc_accepting reset_err, ?_⟩
    rw [reset_x, reset_y, addWithCarry_zero]
    exact ⟨rfl, rfl, commit_valid .., commit_err ..⟩
  · refine ⟨_, exec_subc_accepting reset_err, ?_⟩
    rw [reset_x, reset_y, subWithCarry_zero]
    exact ⟨rfl, rfl, commit_valid .., commit_err ..⟩

end Sys2Proof.Machine
end
